-- ==== Sys2Proof/Config.lean ====
section
/-! DEFINITION. The implementation parameters of spec/00_scope.md rule R5, each under its own name. The literals are taken
at face value (decision D4; assumption log entry 12). `REG_INIT` and `MEM_INIT` are open parameters of R5: they are the
arguments of `State.launch` (Machine/Ops.lean), not constants. The parameters that are widths are abbreviations, so that
the types made from them (Word.lean) are the plain bit-vector types; `@[simp]` lets proofs compute with them. -/

namespace Sys2Proof.Config

/-- `XLEN`: the width in bits of a register, of the pc, of a memory word, of an instruction word and of an address (R5). -/
@[simp] abbrev xlen : Nat := 16

/-- `NREGS`: the number of registers (R5, R20). -/
@[simp] abbrev nregs : Nat := 8

/-- The width of a register selector: "selectors are 3 bits" (R5, `NREGS`). -/
@[simp] abbrev selectorBits : Nat := 3

/-- `MEM_SIZE`: the number of 16-bit words of memory; the valid word addresses are `0 .. memSize - 1` (R5, R40). -/
def memSize : Nat := 512

/-- `BASE_SHIFT`: the left shift of the base register in a load or store address (R5, R120). -/
def baseShift : Nat := 8

/-- `RESET_PC`: the pc at reset (R5, R210). -/
def resetPc : BitVec xlen := 0

/-- `IMM7_BITS`: the width of the signed immediate of format I (R5, R62). -/
@[simp] abbrev imm7Bits : Nat := 7

/-- `IMM10_BITS`: the width of the unsigned immediate of format U (R5, R63). -/
@[simp] abbrev imm10Bits : Nat := 10

/-- `LUI_SHIFT`: the left shift `lui` applies to its immediate (R5, R103). -/
def luiShift : Nat := 6

end Sys2Proof.Config
end

