-- ==== Sys2Proof/Word.lean ====
section
/-! DEFINITION. The word types of the hardware (spec/00_scope.md rules R5, R6, R7; spec/10_state.md rule R20):
a 16-bit word (`XLEN = 16`: the width of a register, of the pc, of a memory word, of an instruction word and of an
address), a 3-bit register selector, and the byte of an image file. -/

namespace Sys2Proof

/-- A 16-bit pattern: a register value, a memory word, an address, a pc value or an instruction word (R5, R7). -/
abbrev Word := BitVec Config.xlen

/-- A register selector, `0 .. 7` (R5: "selectors are 3 bits"; R9, R20). -/
abbrev Reg := BitVec Config.selectorBits

/-- A byte of the program image file; the core itself has no bytes (R45, R166). -/
abbrev Byte := BitVec 8

end Sys2Proof
end

