-- ==== Sys2Proof/Syntax.lean ====
section
/-! DEFINITION. The instructions: one constructor per row of spec/opcode_table.json (spec/30_encoding.md rule R66).
The selectors are the three-bit fields of the word. An immediate is carried as the decoder hands it to the executor
(R64 "value used by the executor", R67): the 16-bit pattern `sext_16(imm7)` or `zext_16(imm10)`. Which patterns an
encoding admits is `Instr.WellFormed`. The bits R69 calls ignored are not part of an instruction. -/

namespace Sys2Proof

/-- The eight instructions (R66), operands in the order of R72. -/
inductive Instr where
  /-- opcode 0, format R: `regA <- regB + regC` (R100). -/
  | add (regA regB regC : Reg)
  /-- opcode 1, format I: `regA <- regB + sext(imm7)` (R101). -/
  | addi (regA regB : Reg) (imm7 : Word)
  /-- opcode 2, format R: `regA <- ~(regB & regC)` (R102). -/
  | nand (regA regB regC : Reg)
  /-- opcode 3, format U: `regA <- imm10 << 6` (R103). -/
  | lui (regA : Reg) (imm10 : Word)
  /-- opcode 4, format I: `mem[(regB << 8) + sext(imm7)] <- regA` (R121). -/
  | sw (regA regB : Reg) (imm7 : Word)
  /-- opcode 5, format I: `regA <- mem[(regB << 8) + sext(imm7)]` (R122). -/
  | lw (regA regB : Reg) (imm7 : Word)
  /-- opcode 6, format I: branch by `sext(imm7)` words if `regA == regB` (R140). -/
  | beq (regA regB : Reg) (imm7 : Word)
  /-- opcode 7, format J: link to `regA`, then jump to `regB` (R142). -/
  | jalr (regA regB : Reg)
  deriving DecidableEq, Repr

end Sys2Proof
end

