-- ==== Sys2Proof/WellFormed.lean ====
section
/-! DEFINITION. Which instruction terms an encoding exists for: an `imm7` operand is the 16-bit pattern of a number in
`-64 .. 63` (spec/30_encoding.md rules R62, R72), an `imm10` operand is in `0 .. 1023` (R63, R72). Selectors need no
check: a `Reg` has three bits. -/

namespace Sys2Proof

/-- The 16-bit patterns of the numbers `-64 .. 63` (R8, R62). -/
def isImm7 (v : Word) : Bool := v.toNat < 64 || 65472 ≤ v.toNat

/-- The 16-bit patterns of the numbers `0 .. 1023` (R63). -/
def isImm10 (v : Word) : Bool := v.toNat < 1024

/-- Every immediate of the instruction is one its field can hold. -/
def Instr.wellFormed : Instr → Bool
  | .add _ _ _ => true
  | .addi _ _ imm7 => isImm7 imm7
  | .nand _ _ _ => true
  | .lui _ imm10 => isImm10 imm10
  | .sw _ _ imm7 => isImm7 imm7
  | .lw _ _ imm7 => isImm7 imm7
  | .beq _ _ imm7 => isImm7 imm7
  | .jalr _ _ => true

/-- `Instr.wellFormed` as a proposition. -/
abbrev Instr.WellFormed (i : Instr) : Prop := i.wellFormed = true

end Sys2Proof
end

