-- ==== Sys2Proof/Decode.lean ====
section
/-! DEFINITION. The instruction decoder (spec/30_encoding.md rules R60 to R70, spec/40_loop.md rules R82, R84, R86):
a pure bit-field extraction, then the dispatch on the opcode with its explicit default arm, then the encoder of R74. -/

namespace Sys2Proof

/-- `sext_16(v)`: the pattern `v` if `v[6] = 0`, and `v + 0xFF80` if `v[6] = 1` (R8). -/
def sext16 (v : BitVec Config.imm7Bits) : Word := v.signExtend Config.xlen

/-- `zext_16(v)`: `v` as a 16-bit pattern, upper 6 bits zero (R8). -/
def zext16 (v : BitVec Config.imm10Bits) : Word := v.setWidth Config.xlen

/-- The six values the decoder produces for every word (R67). -/
structure Fields where
  opcode : BitVec 3
  regA : Reg
  regB : Reg
  regC : Reg
  imm7 : Word
  imm10 : Word
  deriving DecidableEq, Repr

/-- The decoder contract of R67: unconditional extraction, "No validation is performed at decode time". -/
def decodeFields (w : Word) : Fields where
  opcode := w.extractLsb' 13 3
  regA := w.extractLsb' 10 Config.selectorBits
  regB := w.extractLsb' 7 Config.selectorBits
  regC := w.extractLsb' 0 Config.selectorBits
  imm7 := sext16 (w.extractLsb' 0 Config.imm7Bits)
  imm10 := zext16 (w.extractLsb' 0 Config.imm10Bits)

/-- What the dispatcher answers for a word: its instruction, or, by name, that no operation has this opcode (R86). -/
inductive Decoded where
  /-- The word is this instruction. -/
  | instr (i : Instr)
  /-- No operation matches the opcode (IllegalOpcode, R86). Unreachable: all eight codes are assigned (R68). -/
  | illegalOpcode (opcode : Nat)
  deriving DecidableEq, Repr

/-- The opcode map of R66, with the explicit default arm R84 and R86 ask for. -/
def dispatchOpcode (f : Fields) : Decoded :=
  match f.opcode.toNat with
  | 0 => .instr (.add f.regA f.regB f.regC)
  | 1 => .instr (.addi f.regA f.regB f.imm7)
  | 2 => .instr (.nand f.regA f.regB f.regC)
  | 3 => .instr (.lui f.regA f.imm10)
  | 4 => .instr (.sw f.regA f.regB f.imm7)
  | 5 => .instr (.lw f.regA f.regB f.imm7)
  | 6 => .instr (.beq f.regA f.regB f.imm7)
  | 7 => .instr (.jalr f.regA f.regB)
  | n => .illegalOpcode n

/-- Decode one instruction word; total, and it ignores the bits R69 says are ignored. -/
def decode (w : Word) : Decoded := dispatchOpcode (decodeFields w)

/-- The word of an instruction, the unused bits taken from `unused` (all 7 for `jalr`, the low 4 for `add` and
`nand`): the layouts of R61, R62, R63 and R65, most significant field first (R6). An immediate is cut to its field
(R74: `i mod 128`). -/
def encodeWith (unused : BitVec 7) : Instr → Word
  | .add a b c => 0#3 ++ a ++ b ++ unused.setWidth 4 ++ c
  | .addi a b imm7 => 1#3 ++ a ++ b ++ imm7.setWidth Config.imm7Bits
  | .nand a b c => 2#3 ++ a ++ b ++ unused.setWidth 4 ++ c
  | .lui a imm10 => 3#3 ++ a ++ imm10.setWidth Config.imm10Bits
  | .sw a b imm7 => 4#3 ++ a ++ b ++ imm7.setWidth Config.imm7Bits
  | .lw a b imm7 => 5#3 ++ a ++ b ++ imm7.setWidth Config.imm7Bits
  | .beq a b imm7 => 6#3 ++ a ++ b ++ imm7.setWidth Config.imm7Bits
  | .jalr a b => 7#3 ++ a ++ b ++ unused

/-- The word of an instruction with "Unused bits ... assembled as 0" (R72, R74). -/
def encode (i : Instr) : Word := encodeWith 0 i

/-- The instruction the decoder reads from an opcode-table word of `nbits` bits: every instruction is one 16-bit word
(R60), so the word is the low 16 bits, those above `nbits` zero. -/
def decodeTableWord (nbits w : Nat) : Option Instr :=
  match decode (BitVec.ofNat Config.xlen (w % 2 ^ nbits)) with
  | .instr i => some i
  | .illegalOpcode _ => none

end Sys2Proof
end

