-- ==== Sys2Proof/Machine/State.lean ====
section
/-! DEFINITION. The state of the machine (spec/10_state.md): "The whole state of the Machine is the tuple
( x[1..7], pc, mem, run_state )"; "Nothing else is state". With it the reasons a step can stop, and the state after
reset (spec/70_reset_and_hazards.md rule R210). -/

namespace Sys2Proof.Machine

/-- The state of the fetch-execute loop (R28). It has no address and no encoding. -/
inductive RunState where
  /-- The next step fetches and executes the instruction at `pc`. -/
  | running
  /-- "pc left valid range" (R87): the successful end of a run. -/
  | haltedNormal
  /-- "opcode did not decode to a known operation" (R86); unreachable in this hardware (R181). -/
  | haltedIllegal
  /-- A load or store computed an effective address `>= MEM_SIZE` (R123, decision D1). -/
  | haltedAddress
  deriving DecidableEq, Repr

/-- Memory: (word address, 16-bit word) pairs, the smallest addressable unit being the word (R40, R44, R45;
assumption log entry 1). Canonical form: addresses strictly rising and below `memSize`, no entry `0x0000`, which is
what an unlisted address reads as (decision D6; assumption log entry 2). -/
abbrev Memory := List (Nat × Word)

/-- The whole state (spec/10_state.md). `regs` holds `x[1] .. x[7]`, `x[i]` at index `i - 1`; register 0 needs no
storage (R21). -/
structure State where
  regs : Vector Word (Config.nregs - 1)
  pc : Word
  mem : Memory
  runState : RunState
  deriving DecidableEq, Repr

/-- Why a step answers no next state. No instruction's meaning answers one of these: they are `step`'s alone. -/
inductive Fault where
  /-- Raised by `step` in `HALTED_NORMAL`: a terminal state has no transition (R187). The run has ended successfully.
  Safe: the machine makes no step there either. -/
  | haltedNormal
  /-- Raised by `step` in `HALTED_ILLEGAL`: a terminal state has no transition (R187). Safe. -/
  | haltedIllegal
  /-- Raised by `step` in `HALTED_ADDRESS`: a terminal state has no transition (R187), and the run counts as a fault,
  never as a successful end. Safe. -/
  | haltedAddress
  /-- Raised by `step` when a `RUNNING` machine would fetch at a pc `>= MEM_SIZE`, an address that names nothing (R41).
  R27 excludes it in every reachable state. Safe. -/
  | fetchOutOfRange
  deriving DecidableEq, Repr

/-- Why the model gives an instruction no meaning. -/
inductive Refusal where
  /-- Raised by an arm of `exec` for an instruction that has no meaning yet; no arm raises it now. Safe. -/
  | notModelled (mnemonic : String)
  deriving DecidableEq, Repr

/-- The machine right after reset (R210): `RUNNING`, `pc = 0`. Registers 1 to 7, which the spec leaves open
(`REG_INIT`), hold 0 (DESIGN CHOICE, unsafe: assumption log entry 3), and no word of memory is listed, which is an
empty image (DESIGN CHOICE, unsafe: assumption log entry 2). `State.launch` (Machine/Ops.lean) takes both as arguments. -/
def State.reset : State where
  regs := Vector.replicate (Config.nregs - 1) 0
  pc := Config.resetPc
  mem := []
  runState := .running

end Sys2Proof.Machine
end

