-- ==== Sys2Proof/Machine/Ops.lean ====
section
/-! DEFINITION. The named operations over registers, memory, pc and loop state that every instruction is written with:
the register primitives of spec/00_scope.md rule R9, the memory primitives of R10, the exception primitive of R11, and
the pc update with the termination test of spec/40_loop.md rules R85 and R87. -/

namespace Sys2Proof.Machine

/-- `x[i]`: 0 for `i = 0`, the stored value otherwise (R9, R21). -/
def State.read (s : State) (i : Reg) : Word :=
  if h : i = 0 then 0
  else s.regs[i.toNat - 1]'(by
    have h0 : i.toNat ≠ 0 := fun e => h (BitVec.eq_of_toNat_eq e)
    have hlt : i.toNat < 8 := i.isLt
    show i.toNat - 1 < 7
    omega)

/-- `x[i] <- v`: nothing for `i = 0`, else the value is stored (R9, R22, R23). -/
def State.write (s : State) (i : Reg) (v : Word) : State :=
  if h : i = 0 then s
  else { s with regs := s.regs.set (i.toNat - 1) v (by
    have h0 : i.toNat ≠ 0 := fun e => h (BitVec.eq_of_toNat_eq e)
    have hlt : i.toNat < 8 := i.isLt
    show i.toNat - 1 < 7
    omega) }

/-- The word memory holds at a word address; an unlisted word is `0x0000` (assumption log entry 2). -/
def Memory.get : Memory → Nat → Word
  | [], _ => 0
  | (k, v) :: rest, a => if k = a then v else Memory.get rest a

/-- Memory without the entry of an address. -/
def Memory.erase : Memory → Nat → Memory
  | [], _ => []
  | (k, v) :: rest, a => if k = a then Memory.erase rest a else (k, v) :: Memory.erase rest a

/-- Memory with one more entry, before the first entry of a higher address. -/
def Memory.insert : Memory → Nat → Word → Memory
  | [], a, v => [(a, v)]
  | (k, x) :: rest, a, v => if a < k then (a, v) :: (k, x) :: rest else (k, x) :: Memory.insert rest a v

/-- Replace the word at one address (R47: "a write changes exactly the addressed word and nothing else"), keeping the
canonical form: a word that becomes `0x0000` is no longer listed. -/
def Memory.set (m : Memory) (a : Nat) (v : Word) : Memory :=
  if v = 0 then m.erase a else (m.erase a).insert a v

/-- The canonical form from an address on: addresses strictly rising, all in `lo .. memSize - 1`, no word `0x0000`. -/
def Memory.wfFrom : Nat → Memory → Bool
  | _, [] => true
  | lo, (a, v) :: rest => lo ≤ a && a < Config.memSize && v != 0 && Memory.wfFrom (a + 1) rest

/-- The canonical form of memory. -/
def Memory.wf (m : Memory) : Bool := Memory.wfFrom 0 m

/-- Memory holding a list of words from word address `a` on, words at and above `memSize` left out. -/
def Memory.ofWordsFrom : Nat → List Word → Memory
  | _, [] => []
  | a, w :: rest =>
    if Config.memSize ≤ a then []
    else if w = 0 then Memory.ofWordsFrom (a + 1) rest
    else (a, w) :: Memory.ofWordsFrom (a + 1) rest

/-- Is this a word address of the memory (R10, R40: `0 <= a < MEM_SIZE`)? -/
def inRange (a : Word) : Bool := a.toNat < Config.memSize

/-- `MemRead(a, 16)` (R10). A caller has established `inRange a`. -/
def State.memRead (s : State) (a : Word) : Word := s.mem.get a.toNat

/-- `MemWrite(a, 16, v)` (R10). A caller has established `inRange a`. -/
def State.memWrite (s : State) (a : Word) (v : Word) : State := { s with mem := s.mem.set a.toNat v }

/-- Instruction fetch: `MemRead(pc, 16)` (R81); `none` where the pc names no word. -/
def State.fetch (s : State) : Option Word := if inRange s.pc then some (s.memRead s.pc) else none

/-- The pc update and the termination test that end every completed step: `pc <- target`, and if the new pc is
`>= MEM_SIZE` then `run_state <- HALTED_NORMAL`; the pc keeps the out-of-range value (R85, R87, R27). -/
def State.retire (s : State) (target : Word) : State :=
  if inRange target then { s with pc := target }
  else { s with pc := target, runState := .haltedNormal }

/-- The exception primitive (R11, R185): `run_state` takes the terminal value, "nothing else changes". No state is
saved, there is no vector and no return (R185, R187). -/
def State.raise (s : State) (terminal : RunState) : State := { s with runState := terminal }

/-- `raise AddressError(pc, w, ea)` (R11, R182, decision D1; assumption log entry 4). -/
def State.raiseAddressError (s : State) : State := s.raise .haltedAddress

/-- `raise IllegalOpcode(pc, w)` (R11, R86): the dispatcher's default arm, unreachable (assumption log entry 7). -/
def State.raiseIllegalOpcode (s : State) : State := s.raise .haltedIllegal

/-- `x[regA] <- v`, then `pc <- pc + 1` and the termination test: how every register-writing instruction but `jalr`
ends (spec/41_arith_logic.md, R26, R122). -/
def State.writeback (s : State) (regA : Reg) (v : Word) : State := (s.write regA v).retire (s.pc + 1)

/-- The launch state of R210 for any `REG_INIT` (`x[1] .. x[7]`) and any `MEM_INIT` (words from address 0; words beyond
the list `0x0000`, decision D6). `State.reset` is the one with seven zeros and no words. -/
def State.launch (regInit : Vector Word (Config.nregs - 1)) (memInit : List Word) : State where
  regs := regInit
  pc := Config.resetPc
  mem := Memory.ofWordsFrom 0 memInit
  runState := .running

end Sys2Proof.Machine
end

