-- ==== Sys2Proof/Machine/Flags.lean ====
section
/-! DEFINITION. The hardware has no status flags, condition codes or predicate registers and a model must not add any
(spec/10_state.md rule R33): addition wraps and records neither carry nor overflow (R104). The only condition is the
equality `beq` tests, which is stored nowhere (R140). -/

namespace Sys2Proof.Machine

/-- The condition of `beq`: "equality of the two 16-bit patterns" (R140). -/
def State.regsEqual (s : State) (regA regB : Reg) : Bool := s.read regA == s.read regB

end Sys2Proof.Machine
end

