-- ==== Sys2Proof/Machine/Operands.lean ====
section
/-! DEFINITION. The operand forms (spec/30_encoding.md rule R64): a register read through `x[i]` (`State.read`), an
immediate, which the decoder has extended already, and the one addressing mode of `sw` and `lw`
(spec/42_load_store.md rule R120). There are no other operand forms. -/

namespace Sys2Proof.Machine

/-- `ea = ((x[B] << 8) + sext_16(imm7)) mod 2^16` (R120): only the base is scaled, and the sum wraps at 16 bits before
any bound test (R52, reading D13; assumption log entry 9). -/
def effectiveAddress (base : Word) (imm7 : Word) : Word := (base <<< Config.baseShift) + imm7

/-- The effective address of a load or store whose base register is `regB` (R120); the base is not modified. -/
def State.operandAddress (s : State) (regB : Reg) (imm7 : Word) : Word := effectiveAddress (s.read regB) imm7

/-- The value `lui` loads: `(imm10 << 6) mod 2^16` (R103). -/
def upperImmediate (imm10 : Word) : Word := imm10 <<< Config.luiShift

end Sys2Proof.Machine
end

