-- ==== Sys2Proof/Machine/ArithLogic.lean ====
section
/-! DEFINITION. The meanings of add, addi, nand and lui (spec/41_arith_logic.md rules R100 to R104). None of them can
raise anything (R104, R180). -/

namespace Sys2Proof.Machine

/-- `add`: `x[A] <- (x[B] + x[C]) mod 2^16` (R100). -/
def execAdd (regA regB regC : Reg) (s : State) : Host.Outcome State Fault Refusal :=
  .next (s.writeback regA (s.read regB + s.read regC))

/-- `addi`: `x[A] <- (x[B] + sext_16(imm7)) mod 2^16` (R101). -/
def execAddi (regA regB : Reg) (imm7 : Word) (s : State) : Host.Outcome State Fault Refusal :=
  .next (s.writeback regA (s.read regB + imm7))

/-- `nand`: `x[A] <- ~(x[B] & x[C])` on all 16 bits (R102, conflict C7). -/
def execNand (regA regB regC : Reg) (s : State) : Host.Outcome State Fault Refusal :=
  .next (s.writeback regA (~~~(s.read regB &&& s.read regC)))

/-- `lui`: `x[A] <- (imm10 << 6) mod 2^16` (R103). -/
def execLui (regA : Reg) (imm10 : Word) (s : State) : Host.Outcome State Fault Refusal :=
  .next (s.writeback regA (upperImmediate imm10))

end Sys2Proof.Machine
end

