-- ==== Sys2Proof/Machine/ControlTransfer.lean ====
section
/-! DEFINITION. The meanings of beq and jalr (spec/43_control_transfer.md rules R140 to R142). A target `>= MEM_SIZE`
is no error: the transfer completes and the termination test halts the machine normally (R141, conflict C5). There are
no delay slots (R141). -/

namespace Sys2Proof.Machine

/-- `beq`: `pc <- (pc + 1 + sext_16(imm7)) mod 2^16` if `x[A] == x[B]`, else `pc <- (pc + 1) mod 2^16` (R140). -/
def execBeq (regA regB : Reg) (imm7 : Word) (s : State) : Host.Outcome State Fault Refusal :=
  .next (s.retire (if s.regsEqual regA regB then s.pc + 1 + imm7 else s.pc + 1))

/-- `jalr`: first the link, `x[A] <- (pc + 1) mod 2^16`; then the jump, `pc <- x[B]` read after the link write (R142,
conflict C3, reading D14; assumption log entry 8). -/
def execJalr (regA regB : Reg) (s : State) : Host.Outcome State Fault Refusal :=
  let linked := s.write regA (s.pc + 1)
  .next (linked.retire (linked.read regB))

end Sys2Proof.Machine
end

