-- ==== Sys2Proof/Machine/LoadStore.lean ====
section
/-! DEFINITION. The meanings of sw and lw (spec/42_load_store.md rules R120 to R123). The bound is tested after `ea` is
computed and before memory is touched; out of range, the instruction raises AddressError and has no other effect
(R123, decision D1; assumption log entry 4). -/

namespace Sys2Proof.Machine

/-- `sw`: `MemWrite(ea, 16, x[A])`, or AddressError (R121). -/
def execSw (regA regB : Reg) (imm7 : Word) (s : State) : Host.Outcome State Fault Refusal :=
  let ea := s.operandAddress regB imm7
  if inRange ea then .next ((s.memWrite ea (s.read regA)).retire (s.pc + 1))
  else .next s.raiseAddressError

/-- `lw`: `x[A] <- MemRead(ea, 16)`, or AddressError (R122). With `regA = 0` the address is still computed and checked
(decision D12; assumption log entry 11). -/
def execLw (regA regB : Reg) (imm7 : Word) (s : State) : Host.Outcome State Fault Refusal :=
  let ea := s.operandAddress regB imm7
  if inRange ea then .next (s.writeback regA (s.memRead ea))
  else .next s.raiseAddressError

end Sys2Proof.Machine
end

