-- ==== Sys2Proof/Machine/Dispatch.lean ====
section
/-! DEFINITION. The dispatch of the executor (spec/40_loop.md rule R84): exactly one arm per operation, no wildcard. -/

namespace Sys2Proof.Machine

def exec (i : Instr) (s : State) : Host.Outcome State Fault Refusal :=
  match i with
  -- spec/41_arith_logic.md
  | .add regA regB regC => Sys2Proof.Machine.execAdd regA regB regC s
  | .addi regA regB imm7 => Sys2Proof.Machine.execAddi regA regB imm7 s
  | .nand regA regB regC => Sys2Proof.Machine.execNand regA regB regC s
  | .lui regA imm10 => Sys2Proof.Machine.execLui regA imm10 s
  -- spec/42_load_store.md
  | .sw regA regB imm7 => Sys2Proof.Machine.execSw regA regB imm7 s
  | .lw regA regB imm7 => Sys2Proof.Machine.execLw regA regB imm7 s
  -- spec/43_control_transfer.md
  | .beq regA regB imm7 => Sys2Proof.Machine.execBeq regA regB imm7 s
  | .jalr regA regB => Sys2Proof.Machine.execJalr regA regB s

end Sys2Proof.Machine
end

