-- ==== Sys2Proof/Machine/Step.lean ====
section
/-! DEFINITION. The step of the fetch-decode-execute loop (spec/40_loop.md rule R80): fetch, decode, dispatch. The pc
update and the termination test (actions 5 and 6) are the end of every meaning (`State.retire`). -/

namespace Sys2Proof.Machine

/-- One step (R80): defined in `RUNNING` only; in a terminal state there is no transition (R187; assumption log
entry 5). A pc that names no word faults (assumption log entry 6). -/
def step (s : State) : Host.Outcome State Fault Refusal :=
  match s.runState with
  | .running =>
    match s.fetch with
    | some w =>
      match decode w with
      | .instr i => exec i s
      | .illegalOpcode _ => .next s.raiseIllegalOpcode
    | none => .fault .fetchOutOfRange
  | .haltedNormal => .fault .haltedNormal
  | .haltedIllegal => .fault .haltedIllegal
  | .haltedAddress => .fault .haltedAddress

/-- The state with an instruction word placed where `step` fetches next: the word at the pc, where the pc names one.
It stands for the host's load before the run (R165; assumption log entry 14). -/
def State.withFetchWord (s : State) (nbits w : Nat) : State :=
  if inRange s.pc then s.memWrite s.pc (BitVec.ofNat Config.xlen (w % 2 ^ nbits)) else s

end Sys2Proof.Machine
end

