-- ==== Sys2Proof/Machine/Loader.lean ====
section
/-! DEFINITION. What the core needs from the host's load before a run (spec/50_interfaces.md rules R165, R166): the
image's bytes as `MEM_INIT` words, little-endian (decision D7; assumption log entry 13), at most `MEM_SIZE` words, words
beyond the image `0x0000` (decision D6). The Loader's file handling is out of scope (R4). -/

namespace Sys2Proof.Machine

/-- The words of an image: file byte `2k` is bits 7:0 of word `k`, byte `2k + 1` bits 15:8; the high byte of an odd last
byte is 0 (R166). -/
def wordsOfBytes : List Byte → List Word
  | [] => []
  | [lo] => [lo.setWidth 16]
  | lo :: hi :: rest => (hi ++ lo) :: wordsOfBytes rest

/-- The launch state for an image, or `none` for an image larger than the memory, which is "rejected before execution"
(R165). -/
def launchImage (regInit : Vector Word (Config.nregs - 1)) (image : List Byte) : Option State :=
  if image.length ≤ 2 * Config.memSize then some (State.launch regInit (wordsOfBytes image)) else none

end Sys2Proof.Machine
end

