-- ==== Sys2Proof/Machine/Run.lean ====
section
/-! DEFINITION. The run (spec/40_loop.md rule R90): "the sequence of states from the reset state under repeated steps",
its end, "the first state with `run_state` in {HALTED_NORMAL, HALTED_ILLEGAL, HALTED_ADDRESS}", and the executor under
fuel the rule asks for, since a run need not end and the hardware has no watchdog. The reset state of a run is
`State.launch` for some `REG_INIT` and `MEM_INIT` (R210); nothing here depends on which. -/

namespace Sys2Proof.Machine

/-- A terminal state: "from which no further cycles occur" (R12, R28). -/
def State.terminal (s : State) : Bool := s.runState != .running

/-- The only successful end of a run (R187, decision D18). -/
def State.succeeded (s : State) : Bool := s.runState == .haltedNormal

/-- The state of the run from `s` after `n` steps (`n = 0`: `s` itself); `none` where the run has fewer steps. -/
def State.after (s : State) : Nat → Option State
  | 0 => some s
  | n + 1 =>
    match step s with
    | .next t => t.after n
    | .fault _ => none
    | .refused _ => none

/-- The run from `s` ends after `n` steps in `t`: `t` is its first terminal state (R90, decision D18). -/
def State.EndsAfter (s : State) (n : Nat) (t : State) : Prop :=
  s.after n = some t ∧ t.terminal = true ∧ ∀ m < n, ∀ u, s.after m = some u → u.terminal = false

/-- What an executor under fuel answers. -/
inductive RunResult where
  /-- The run has ended: its first terminal state, and how many steps it took. -/
  | ended (steps : Nat) (s : State)
  /-- The run has not ended within the fuel: the state it is in. -/
  | outOfFuel (s : State)
  /-- A `RUNNING` state had no step: its fault (only `fetchOutOfRange`, which R27 excludes). -/
  | faulted (r : Fault)
  /-- An instruction has no meaning; no instruction is refused now. -/
  | refused (r : Refusal)
  deriving DecidableEq, Repr

/-- One more step counted in front of a result. -/
def RunResult.addStep : RunResult → RunResult
  | .ended n s => .ended (n + 1) s
  | .outOfFuel s => .outOfFuel s
  | .faulted r => .faulted r
  | .refused r => .refused r

/-- Run under fuel, at most that many steps, stopping at the first terminal state (R90). -/
def State.runFuel (s : State) : Nat → RunResult
  | 0 => if s.terminal then .ended 0 s else .outOfFuel s
  | fuel + 1 =>
    if s.terminal then .ended 0 s
    else
      match step s with
      | .next t => (t.runFuel fuel).addStep
      | .fault r => .faulted r
      | .refused r => .refused r

end Sys2Proof.Machine
end

