-- ==== Sys2Proof/Machine/Status.lean ====
section
/-! DEFINITION. The status outputs (spec/50_interfaces.md rule R163): pure functions of the state, no latches
(decision D2). `run_state` and `pc` are fields of the state; the outputs below have a value only in the states where
R163 says they are meaningful. -/

namespace Sys2Proof.Machine

/-- Is the machine in one of the two states a raise ends in (R163, R180)? -/
def State.raised (s : State) : Bool := s.runState == .haltedIllegal || s.runState == .haltedAddress

/-- "offending word": `MemRead(pc, 16)`, in `HALTED_ILLEGAL` and `HALTED_ADDRESS` (R163). -/
def State.offendingWord (s : State) : Option Word := if s.raised then some (s.memRead s.pc) else none

/-- "offending opcode": bits 15:13 of the offending word (R163). -/
def State.offendingOpcode (s : State) : Option (BitVec 3) := s.offendingWord.map fun w => (decodeFields w).opcode

/-- "offending address": `ea` recomputed from the offending word and the registers, in `HALTED_ADDRESS` (R163). -/
def State.offendingAddress (s : State) : Option Word :=
  if s.runState = .haltedAddress then
    let f := decodeFields (s.memRead s.pc)
    some (s.operandAddress f.regB f.imm7)
  else none

end Sys2Proof.Machine
end

