-- ==== Sys2Proof/Safety.lean ====
section
/-! DEFINITION. What counts as a legal state, in the terms the claims use; the end of a run is in Machine/Run.lean. -/

namespace Sys2Proof.Machine

/-- Where the pc may stand in each loop state: in `RUNNING` inside the memory (R27); in `HALTED_NORMAL` the value
outside it that caused the halt (R27); after a raise the address of the offending instruction (R163, R185).
`HALTED_ILLEGAL` is no legal state at all: no reachable state has it (R181). -/
def State.pcLegal (s : State) : Bool :=
  match s.runState with
  | .running => inRange s.pc
  | .haltedNormal => !inRange s.pc
  | .haltedIllegal => false
  | .haltedAddress => inRange s.pc

/-- The invariant of the machine: memory keeps its canonical form and the pc stands where its loop state says. -/
def State.Inv (s : State) : Prop := s.mem.wf = true ∧ s.pcLegal = true

end Sys2Proof.Machine
end

