-- ==== Sys2Proof/Certificates/Slice0/Obligations.lean ====
section
/-! DEFINITION. The statements for the provers, in the order encoding, memory and registers, instructions, step, whole
machine. First the vocabulary they share (namespace `Sys2Proof.Claims`), written from the spec's own notation: numbers
with an explicit `mod 2^16` (spec/00_scope.md rules R6, R7), not the operations the meanings use. -/

namespace Sys2Proof.Claims

open Sys2Proof.Machine

/-- The 16-bit pattern of a number (R7: "an explicit `mod 2^16`"). -/
def pattern (n : Nat) : Word := BitVec.ofNat 16 (n % 65536)

/-- `sext_16(v)` for a 7-bit number: `v` if `v[6] = 0`, else `v + 0xFF80` (R8). -/
def sextNat (v : Nat) : Nat := if v / 64 % 2 = 0 then v else v + 0xFF80

/-- The termination test between a state and the state after a completed instruction (R87). -/
def HaltTest (s t : State) : Prop :=
  t.runState = if t.pc.toNat < Config.memSize then s.runState else .haltedNormal

/-- Every word of memory reads as before. -/
def SameMemory (s t : State) : Prop := ∀ x : Nat, t.mem.get x = s.mem.get x

/-- Every register reads as before. -/
def SameRegisters (s t : State) : Prop := ∀ r : Reg, t.read r = s.read r

/-- The instruction answers a next state in which register `a` reads `v` (0 if `a` is register 0: R22), every other
register and every word of memory reads as before, the pc is `target`, and the termination test has been made. -/
def WritesOneRegister (i : Instr) (s : State) (a : Reg) (v target : Word) : Prop :=
  ∃ t, exec i s = .next t ∧ t.read a = (if a = 0 then 0 else v) ∧ (∀ r, r ≠ a → t.read r = s.read r) ∧
    SameMemory s t ∧ t.pc = target ∧ HaltTest s t

/-- The bits of a word its instruction uses: all but bits 6:3 of `add` and `nand` and bits 6:0 of `jalr` (R69). -/
def usedBits : Instr → Word
  | .add _ _ _ => 0xFF87
  | .nand _ _ _ => 0xFF87
  | .jalr _ _ => 0xFF80
  | .addi _ _ _ => 0xFFFF
  | .lui _ _ => 0xFFFF
  | .sw _ _ _ => 0xFFFF
  | .lw _ _ _ => 0xFFFF
  | .beq _ _ _ => 0xFFFF

/-- The register an instruction writes: the column "writes" of R23. -/
def destination : Instr → Option Reg
  | .add a _ _ => some a
  | .addi a _ _ => some a
  | .nand a _ _ => some a
  | .lui a _ => some a
  | .sw _ _ _ => none
  | .lw a _ _ => some a
  | .beq _ _ _ => none
  | .jalr a _ => some a

/-- The registers an instruction reads: the column "reads" of R23. -/
def sources : Instr → List Reg
  | .add _ b c => [b, c]
  | .addi _ b _ => [b]
  | .nand _ b c => [b, c]
  | .lui _ _ => []
  | .sw a b _ => [a, b]
  | .lw _ b _ => [b]
  | .beq a b _ => [a, b]
  | .jalr _ b => [b]

/-- `w[hi:lo] = (w >> lo) mod 2^(hi-lo+1)` (R6). -/
def slice (w hi lo : Nat) : Nat := (w / 2 ^ lo) % 2 ^ (hi - lo + 1)

/-- `x[i]` as a number, for a selector written as a number. -/
def x (s : State) (i : Nat) : Nat := (s.read (BitVec.ofNat 3 i)).toNat

/-- `x[i] <- v mod 2^16`, for a selector written as a number. -/
def setX (s : State) (i v : Nat) : State := s.write (BitVec.ofNat 3 i) (pattern v)

/-- Actions 5 and 6 of R80: `pc <- next`, and `HALTED_NORMAL` if `pc >= MEM_SIZE`. -/
def endStep (s : State) (next : Nat) : State :=
  if 512 ≤ next then { s with pc := pattern next, runState := .haltedNormal } else { s with pc := pattern next }

/-- The step of R80, transcribed line by line from its pseudocode block: numbers, explicit reductions, one case per
opcode and the default arm. -/
def stepBlock (s : State) : State :=
  let pc := s.pc.toNat
  let w := (s.mem.get pc).toNat
  let opcode := slice w 15 13
  let A := slice w 12 10
  let B := slice w 9 7
  let C := slice w 2 0
  let i7 := sextNat (slice w 6 0)
  let i10 := slice w 9 0
  let next := (pc + 1) % 65536
  match opcode with
  | 0 => endStep (setX s A (x s B + x s C)) next
  | 1 => endStep (setX s A (x s B + i7)) next
  | 2 => endStep (setX s A (65535 - (x s B &&& x s C))) next
  | 3 => endStep (setX s A (i10 * 2 ^ 6)) next
  | 4 =>
    let ea := (x s B * 2 ^ 8 + i7) % 65536
    if 512 ≤ ea then { s with runState := .haltedAddress }
    else endStep { s with mem := s.mem.set ea (pattern (x s A)) } next
  | 5 =>
    let ea := (x s B * 2 ^ 8 + i7) % 65536
    if 512 ≤ ea then { s with runState := .haltedAddress }
    else endStep (setX s A (s.mem.get ea).toNat) next
  | 6 => endStep s (if x s A = x s B then (pc + 1 + i7) % 65536 else next)
  | 7 =>
    let linked := setX s A (pc + 1)
    endStep linked (x linked B)
  | _ => { s with runState := .haltedIllegal }

end Sys2Proof.Claims

open Sys2Proof Sys2Proof.Machine Sys2Proof.Claims

/-! ## Encoding -/

/-- Words worked out bit by bit from the encodings of R61 to R66 decode to the instructions they stand for
(spec/95_test_vectors.md section 1 and section 2.0). A sanity statement. -/
def Obligations.SampleWordsDecode : Prop :=
  decode 0x0C82 = .instr (.add 3 1 2) ∧
  decode 0x2405 = .instr (.addi 1 0 5) ∧
  decode 0x24FF = .instr (.addi 1 1 0xFFFF) ∧
  decode 0x5604 = .instr (.nand 5 4 4) ∧
  decode 0x7BFF = .instr (.lui 6 1023) ∧
  decode 0x8CFF = .instr (.sw 3 1 0xFFFF) ∧
  decode 0xAC20 = .instr (.lw 3 0 32) ∧
  decode 0xC07E = .instr (.beq 0 0 0xFFFE) ∧
  decode 0xFD7F = .instr (.jalr 7 2)

/-- Decode and encode agree: every well-formed instruction, with every operand at every value, comes back from its word,
whatever the unused bits of the word are. -/
def Obligations.DecodeOfEncodeReturnsTheInstruction : Prop :=
  ∀ (i : Instr) (unused : BitVec 7), i.WellFormed → decode (encodeWith unused i) = .instr i

/-- The other direction: what a word decodes to is well-formed, and encoding it again gives the word with the ignored
bits cleared (the sentence after the list of R74, which the spec marks as its own derivation). -/
def Obligations.EncodeOfDecodeClearsIgnoredBits : Prop :=
  ∀ (w : Word) (i : Instr), decode w = .instr i → i.WellFormed ∧ encode i = w &&& usedBits i

/-- R68: there is no illegal encoding. -/
def Obligations.EveryWordIsAnInstruction : Prop := ∀ w : Word, ∃ i, decode w = .instr i

/-- R66: a word is instruction `m` exactly when `w & mask = match`, for each of the eight rows. -/
def Obligations.OpcodeFieldAloneSelectsTheInstruction : Prop :=
  ∀ w : Word,
    ((∃ a b c, decode w = .instr (.add a b c)) ↔ w &&& 0xE000 = 0x0000) ∧
    ((∃ a b imm, decode w = .instr (.addi a b imm)) ↔ w &&& 0xE000 = 0x2000) ∧
    ((∃ a b c, decode w = .instr (.nand a b c)) ↔ w &&& 0xE000 = 0x4000) ∧
    ((∃ a imm, decode w = .instr (.lui a imm)) ↔ w &&& 0xE000 = 0x6000) ∧
    ((∃ a b imm, decode w = .instr (.sw a b imm)) ↔ w &&& 0xE000 = 0x8000) ∧
    ((∃ a b imm, decode w = .instr (.lw a b imm)) ↔ w &&& 0xE000 = 0xA000) ∧
    ((∃ a b imm, decode w = .instr (.beq a b imm)) ↔ w &&& 0xE000 = 0xC000) ∧
    ((∃ a b, decode w = .instr (.jalr a b)) ↔ w &&& 0xE000 = 0xE000)

/-- R67: the decoder's six values, each the slice R6 defines, for every word, and the executor gets the fields of its
own format. -/
def Obligations.DecoderExtractsTheSixFields : Prop :=
  ∀ w : Word, let f := decodeFields w
    f.opcode.toNat = slice w.toNat 15 13 ∧ f.regA.toNat = slice w.toNat 12 10 ∧ f.regB.toNat = slice w.toNat 9 7 ∧
    f.regC.toNat = slice w.toNat 2 0 ∧ f.imm7 = pattern (sextNat (slice w.toNat 6 0)) ∧
    f.imm10.toNat = slice w.toNat 9 0 ∧
    (decode w = .instr (.add f.regA f.regB f.regC) ∨ decode w = .instr (.addi f.regA f.regB f.imm7) ∨
      decode w = .instr (.nand f.regA f.regB f.regC) ∨ decode w = .instr (.lui f.regA f.imm10) ∨
      decode w = .instr (.sw f.regA f.regB f.imm7) ∨ decode w = .instr (.lw f.regA f.regB f.imm7) ∨
      decode w = .instr (.beq f.regA f.regB f.imm7) ∨ decode w = .instr (.jalr f.regA f.regB))

/-- R8: `sext_16` copies bit 6 upwards and stays in `-64 .. 63` as a signed number, and adding the
pattern is adding that number; `zext_16` is the value itself. -/
def Obligations.ExtensionsFollowTheSignBit : Prop :=
  (∀ v : BitVec 7, (sext16 v).toNat = (if v.getLsbD 6 = false then v.toNat else v.toNat + 0xFF80) ∧
    -64 ≤ (sext16 v).toInt ∧ (sext16 v).toInt ≤ 63) ∧
  (∀ (a : Word) (v : BitVec 7), a + sext16 v = BitVec.ofInt 16 ((a.toNat : Int) + (sext16 v).toInt)) ∧
  (∀ v : BitVec 10, (zext16 v).toNat = v.toNat) ∧ sext16 0x7F = 0xFFFF ∧ sext16 0x3F = 0x003F

/-- R69: any value of the ignored bits is accepted and has no effect: bits 6:3 of `add` and `nand` (opcodes 0 and 2)
and bits 6:0 of `jalr` (opcode 7). -/
def Obligations.IgnoredBitsHaveNoEffect : Prop :=
  ∀ w w' : Word,
    ((w &&& 0xE000 = 0x0000 ∨ w &&& 0xE000 = 0x4000) → w &&& 0xFF87 = w' &&& 0xFF87 → decode w = decode w') ∧
    (w &&& 0xE000 = 0xE000 → w &&& 0xFF80 = w' &&& 0xFF80 → decode w = decode w')

/-- The words of R74, written there with shifts and ors (the spec marks the list as its own derivation). -/
def Obligations.EncodedWordsAreShiftedFields : Prop :=
  ∀ (a b c : Reg) (imm : Word) (u : BitVec 7),
    (encodeWith u (.add a b c)).toNat = (0 <<< 13) ||| (a.toNat <<< 10) ||| (b.toNat <<< 7) ||| ((u.toNat % 16) <<< 3) ||| c.toNat ∧
    (encodeWith u (.addi a b imm)).toNat = (1 <<< 13) ||| (a.toNat <<< 10) ||| (b.toNat <<< 7) ||| (imm.toNat % 128) ∧
    (encodeWith u (.nand a b c)).toNat = (2 <<< 13) ||| (a.toNat <<< 10) ||| (b.toNat <<< 7) ||| ((u.toNat % 16) <<< 3) ||| c.toNat ∧
    (encodeWith u (.lui a imm)).toNat = (3 <<< 13) ||| (a.toNat <<< 10) ||| (imm.toNat % 1024) ∧
    (encodeWith u (.sw a b imm)).toNat = (4 <<< 13) ||| (a.toNat <<< 10) ||| (b.toNat <<< 7) ||| (imm.toNat % 128) ∧
    (encodeWith u (.lw a b imm)).toNat = (5 <<< 13) ||| (a.toNat <<< 10) ||| (b.toNat <<< 7) ||| (imm.toNat % 128) ∧
    (encodeWith u (.beq a b imm)).toNat = (6 <<< 13) ||| (a.toNat <<< 10) ||| (b.toNat <<< 7) ||| (imm.toNat % 128) ∧
    (encodeWith u (.jalr a b)).toNat = (7 <<< 13) ||| (a.toNat <<< 10) ||| (b.toNat <<< 7) ||| u.toNat

/-! ## Registers, memory, addressing -/

/-- R9 (and R21, R22 for register 0): `x[i] <- v` stores `v` in register `i` and in no other, and does nothing when
`i = 0`; `x[0]` is 0 in every state. -/
def Obligations.RegisterWriteThenRead : Prop :=
  ∀ (s : State) (i j : Reg) (v : Word),
    (s.write i v).read j = (if j = 0 then 0 else if j = i then v else s.read j) ∧ s.write 0 v = s

/-- The canonical form of memory is canonical: two memories in that form whose every address reads the same are the same
data. (The representation is the model's: assumption log entries 1 and 2.) -/
def Obligations.CanonicalMemoriesWithEqualReadsAreEqual : Prop :=
  ∀ m m' : Memory, m.wf = true → m'.wf = true → (∀ a, m.get a = m'.get a) → m = m'

/-- The one addressing mode (spec/42_load_store.md section 1): reduced modulo `2^16`; "bits 15:8 of the base register do
not affect `ea`"; the document's worked value 517; the six further values 32, 255, 511, 0xFFFF, 0xFF3F and 256, which the
spec marks as its own derivation ("[derived: from this rule]"); the base register is not modified by the addressing (an
`lw` into its own base writes it as its destination). -/
def Obligations.EffectiveAddressScalesTheBase : Prop :=
  (∀ (s : State) (b : Reg) (v : BitVec 7),
    (s.operandAddress b (sext16 v)).toNat = ((s.read b).toNat * 2 ^ 8 + sextNat v.toNat) % 65536) ∧
  (∀ (base : Word) (v : BitVec 7), effectiveAddress base (sext16 v) = effectiveAddress (base &&& 0x00FF) (sext16 v)) ∧
  (effectiveAddress 2 (sext16 5) = 517 ∧ effectiveAddress 0 (sext16 32) = 32 ∧ effectiveAddress 1 (sext16 0x7F) = 255 ∧
    effectiveAddress 2 (sext16 0x7F) = 511 ∧ effectiveAddress 0 (sext16 0x7F) = 0xFFFF ∧
    effectiveAddress 0x00FF (sext16 63) = 0xFF3F ∧ effectiveAddress 0x0101 (sext16 0) = 256) ∧
  (∀ (s t : State) (a b : Reg) (v : BitVec 7),
    (exec (.sw a b (sext16 v)) s = .next t ∨ (a ≠ b ∧ exec (.lw a b (sext16 v)) s = .next t)) → t.read b = s.read b)

/-- R43, which the spec marks as its own derivation: the in-range addresses a load or store can reach are exactly the
three bands. -/
def Obligations.DataAccessesReachThreeBands : Prop :=
  ∀ a : Nat,
    ((∃ (base : Word) (v : BitVec 7), (effectiveAddress base (sext16 v)).toNat = a) ∧ a < Config.memSize) ↔
      (a ≤ 63 ∨ (192 ≤ a ∧ a ≤ 319) ∨ (448 ≤ a ∧ a ≤ 511))

/-! ## Instructions -/

/-- R100: `x[A] <- (x[B] + x[C]) mod 2^16`; bits 6:3 ignored; the sources are read before the destination is written. -/
def Obligations.AddStoresTheSum : Prop :=
  ∀ (a b c : Reg) (u : BitVec 4),
    decode (0#3 ++ a ++ b ++ u ++ c) = .instr (.add a b c) ∧
    ∀ s : State, WritesOneRegister (.add a b c) s a (pattern ((s.read b).toNat + (s.read c).toNat)) (s.pc + 1)

/-- R101: `x[A] <- (x[B] + sext_16(imm7)) mod 2^16`. -/
def Obligations.AddiAddsTheSignedImmediate : Prop :=
  ∀ (a b : Reg) (imm7 : BitVec 7),
    decode (1#3 ++ a ++ b ++ imm7) = .instr (.addi a b (sext16 imm7)) ∧
    ∀ s : State, WritesOneRegister (.addi a b (sext16 imm7)) s a
      (pattern ((s.read b).toNat + sextNat imm7.toNat)) (s.pc + 1)

/-- R102: `x[A] <- ~(x[B] & x[C])`, that is `65535 - (x[B] & x[C])`, and result bit `k` is 0 exactly when bit `k` of both
sources is 1. -/
def Obligations.NandIsBitwiseOnAllSixteenBits : Prop :=
  ∀ (a b c : Reg) (u : BitVec 4),
    decode (2#3 ++ a ++ b ++ u ++ c) = .instr (.nand a b c) ∧
    ∀ s : State, let v := pattern (65535 - ((s.read b).toNat &&& (s.read c).toNat))
      WritesOneRegister (.nand a b c) s a v (s.pc + 1) ∧
      ∀ k < 16, (v.getLsbD k = false ↔ (s.read b).getLsbD k = true ∧ (s.read c).getLsbD k = true)

/-- R103: `x[A] <- (imm10 << 6) mod 2^16`: bits 15:6 are the immediate, bits 5:0 are 0. -/
def Obligations.LuiLoadsTheUpperTenBits : Prop :=
  ∀ (a : Reg) (imm10 : BitVec 10),
    decode (3#3 ++ a ++ imm10) = .instr (.lui a (zext16 imm10)) ∧
    ∀ s : State, WritesOneRegister (.lui a (zext16 imm10)) s a (imm10 ++ 0#6) (s.pc + 1) ∧
      imm10 ++ 0#6 = pattern (imm10.toNat * 2 ^ 6)

/-- `sw` in range (spec/42_load_store.md section 2): the word at `ea`, and no other, becomes `x[A]`; no register changes;
the pc advances. The bound is the model's reading of decision D1. -/
def Obligations.SwStoresInRange : Prop :=
  ∀ (a b : Reg) (imm7 : BitVec 7) (s : State),
    let ea := ((s.read b).toNat * 2 ^ 8 + sextNat imm7.toNat) % 65536
    ea < Config.memSize →
      ∃ t, exec (.sw a b (sext16 imm7)) s = .next t ∧ t.mem.get ea = s.read a ∧
        (∀ x : Nat, x ≠ ea → t.mem.get x = s.mem.get x) ∧ SameRegisters s t ∧ t.pc = s.pc + 1 ∧ HaltTest s t

/-- `lw` in range (spec/42_load_store.md section 2): `x[A]` becomes the word at `ea`, read with the base as it was before;
memory and every other register unchanged; the pc advances. -/
def Obligations.LwLoadsInRange : Prop :=
  ∀ (a b : Reg) (imm7 : BitVec 7) (s : State),
    let ea := ((s.read b).toNat * 2 ^ 8 + sextNat imm7.toNat) % 65536
    ea < Config.memSize → WritesOneRegister (.lw a b (sext16 imm7)) s a (s.mem.get ea) (s.pc + 1)

/-- `sw` and `lw` out of range (the spec's own decision D1; log entry 4; D12 for `lw` to register 0, log entry 11):
`run_state` becomes `HALTED_ADDRESS` and every register, the pc and every word of memory keep their values. -/
def Obligations.OutOfRangeDataAddressRaises : Prop :=
  ∀ (a b : Reg) (imm7 : BitVec 7) (s : State),
    Config.memSize ≤ ((s.read b).toNat * 2 ^ 8 + sextNat imm7.toNat) % 65536 →
      exec (.sw a b (sext16 imm7)) s = .next { s with runState := .haltedAddress } ∧
      exec (.lw a b (sext16 imm7)) s = .next { s with runState := .haltedAddress }

/-- R140: taken, `pc <- (pc + 1 + sext_16(imm7)) mod 2^16`; not taken, `pc <- (pc + 1) mod 2^16`; nothing else changes. -/
def Obligations.BeqBranchesOnEquality : Prop :=
  ∀ (a b : Reg) (imm7 : BitVec 7),
    decode (6#3 ++ a ++ b ++ imm7) = .instr (.beq a b (sext16 imm7)) ∧
    ∀ s : State, ∃ t, exec (.beq a b (sext16 imm7)) s = .next t ∧ SameRegisters s t ∧ SameMemory s t ∧ HaltTest s t ∧
      t.pc = (if s.read a = s.read b then pattern (s.pc.toNat + 1 + sextNat imm7.toNat) else pattern (s.pc.toNat + 1))

/-- R142: first the link, then the jump with `x[B]` read after the link write, so that `jalr rX,rX` with `X != 0` falls
through to `pc + 1`. The low 7 bits are ignored. -/
def Obligations.JalrLinksThenJumps : Prop :=
  ∀ (a b : Reg) (u : BitVec 7),
    decode (7#3 ++ a ++ b ++ u) = .instr (.jalr a b) ∧
    ∀ s : State, WritesOneRegister (.jalr a b) s a (pattern (s.pc.toNat + 1))
      (if a = b ∧ a ≠ 0 then pattern (s.pc.toNat + 1) else s.read b)

/-- The no-operation encodings of R70 (marked there as derived): `add`, `addi`, `nand` and `lui` to register 0, a `beq`
not taken and a `beq` with displacement 0 change nothing but the pc (and, at the end of memory, `run_state`); the
all-zero word is `add r0,r0,r0`. -/
def Obligations.NoOperationFormsOnlyAdvanceThePc : Prop :=
  ∀ (s : State) (a b c : Reg) (imm : Word),
    exec (.add 0 b c) s = .next (s.retire (s.pc + 1)) ∧ exec (.addi 0 b imm) s = .next (s.retire (s.pc + 1)) ∧
    exec (.nand 0 b c) s = .next (s.retire (s.pc + 1)) ∧ exec (.lui 0 imm) s = .next (s.retire (s.pc + 1)) ∧
    (s.read a ≠ s.read b → exec (.beq a b imm) s = .next (s.retire (s.pc + 1))) ∧
    exec (.beq a b 0) s = .next (s.retire (s.pc + 1)) ∧ decode 0x0000 = .instr (.add 0 0 0)

/-- The columns "reads" and "writes" of R23: an instruction's effect on the pc, on memory, on the loop state and, unless it
raised, on its destination depends on no register but its sources. -/
def Obligations.OnlySourceRegistersMatter : Prop :=
  ∀ (i : Instr) (s s' t t' : State), (∀ r ∈ sources i, s.read r = s'.read r) → s.pc = s'.pc → s.mem = s'.mem →
    s.runState = s'.runState → exec i s = .next t → exec i s' = .next t' →
      t.pc = t'.pc ∧ t.mem = t'.mem ∧ t.runState = t'.runState ∧
      (t.runState ≠ .haltedAddress → ∀ d, destination i = some d → t.read d = t'.read d)

/-! ## The step -/

/-- R81, R82, R84: in `RUNNING`, with the pc in memory, a step is `exec` of the instruction the word at the pc decodes
to. -/
def Obligations.StepRunsTheFetchedInstruction : Prop :=
  ∀ (s : State) (i : Instr), s.runState = .running → s.pc.toNat < Config.memSize →
    decode (s.mem.get s.pc.toNat) = .instr i → step s = exec i s

/-- The step is the block of R80: for every `RUNNING` state with its pc in memory, `step` answers exactly the state the
spec's pseudocode computes (the address error of it is the spec's decision D1). -/
def Obligations.StepComputesTheSpecBlock : Prop :=
  ∀ s : State, s.runState = .running → s.pc.toNat < Config.memSize → step s = .next (stepBlock s)

/-- In a terminal state the step has no transition (R187; for `HALTED_ADDRESS` decision D1). That the outcome is a fault
named after the state is the model's choice (log entry 5). -/
def Obligations.TerminalStatesHaveNoSuccessor : Prop :=
  ∀ s : State, (s.runState ≠ .running → ∀ t, step s ≠ .next t) ∧
    (s.runState = .haltedNormal → step s = .fault .haltedNormal) ∧
    (s.runState = .haltedIllegal → step s = .fault .haltedIllegal) ∧
    (s.runState = .haltedAddress → step s = .fault .haltedAddress)

/-- A `RUNNING` machine whose pc names no word faults at the fetch: the model's choice (log entry 6) for states R27
excludes. -/
def Obligations.FetchOutsideMemoryFaults : Prop :=
  ∀ s : State, s.runState = .running → Config.memSize ≤ s.pc.toNat → step s = .fault .fetchOutOfRange

/-- Every `RUNNING` state that meets the invariant has a successor (spec/93 U12: "the model gives every `RUNNING` state a
successor"). -/
def Obligations.RunningStatesAlwaysStep : Prop :=
  ∀ s : State, s.Inv → s.runState = .running → ∃ t, step s = .next t

/-! ## The whole machine -/

/-- Every step keeps the invariant: memory in canonical form, pc where its loop state says, `HALTED_ILLEGAL` never. -/
def Obligations.StepKeepsTheInvariant : Prop :=
  ∀ s t : State, s.Inv → step s = .next t → t.Inv

/-- The launch state meets the invariant for every `REG_INIT` and every `MEM_INIT`, however long. -/
def Obligations.EveryLaunchStateMeetsTheInvariant : Prop :=
  ∀ (regInit : Vector Word 7) (memInit : List Word), (State.launch regInit memInit).Inv

/-- The state after reset meets the invariant. -/
def Obligations.ResetStateMeetsTheInvariant : Prop := State.reset.Inv

/-- The launch state of R210 for every `REG_INIT` and `MEM_INIT`: `RUNNING`, `pc = 0`, `x[0] = 0`, `x[i] = REG_INIT[i]`,
word `k` of memory `MEM_INIT[k]`, and 0 beyond the list (the spec's decision D6, log entry 2). The reset state is the one
whose registers are 0 and whose image is empty (the model's choice, log entries 2 and 3). -/
def Obligations.LaunchStateHoldsItsParameters : Prop :=
  (∀ (regInit : Vector Word 7) (memInit : List Word), let s := State.launch regInit memInit
    s.runState = .running ∧ s.pc = 0 ∧ s.read 0 = 0 ∧
    (∀ k : Fin 7, s.read (BitVec.ofNat 3 (k.val + 1)) = regInit[k.val]) ∧
    (∀ k < Config.memSize, s.mem.get k = memInit.getD k 0)) ∧
  State.reset = State.launch (Vector.replicate 7 0) []

/-- No step enters `HALTED_ILLEGAL` (R181, which the spec marks as derived). -/
def Obligations.NoStepReachesHaltedIllegal : Prop :=
  ∀ s t : State, step s = .next t → t.runState ≠ .haltedIllegal

/-- The complete list of what a step can end in (R180, R184, R185; the address error is the spec's decision D1): it goes
on `RUNNING` with the pc in memory; or it halts normally with the pc outside; or, at a `sw` or `lw` whose address is out
of range only, it enters `HALTED_ADDRESS` and changes nothing else. -/
def Obligations.StepEndsOnlyAsListed : Prop :=
  ∀ s t : State, step s = .next t →
    (t.runState = .running ∧ t.pc.toNat < Config.memSize) ∨
    (t.runState = .haltedNormal ∧ Config.memSize ≤ t.pc.toNat) ∨
    (t = { s with runState := .haltedAddress } ∧ ∃ (a b : Reg) (imm : Word),
      (decode (s.mem.get s.pc.toNat) = .instr (.sw a b imm) ∨ decode (s.mem.get s.pc.toNat) = .instr (.lw a b imm)) ∧
      Config.memSize ≤ (s.operandAddress b imm).toNat)

/-- Only a store changes memory, and only the word at its effective address (R40, R47). -/
def Obligations.OnlyAStoreChangesMemory : Prop :=
  ∀ (s t : State) (x : Nat), step s = .next t → t.mem.get x ≠ s.mem.get x →
    ∃ (a b : Reg) (imm : Word), decode (s.mem.get s.pc.toNat) = .instr (.sw a b imm) ∧
      x = (s.operandAddress b imm).toNat ∧ x < Config.memSize ∧ t.mem.get x = s.read a

/-- A step changes at most one register, the one R23's table gives the fetched instruction, and never register 0. -/
def Obligations.OnlyTheDestinationRegisterChanges : Prop :=
  ∀ (s t : State) (r : Reg), step s = .next t → t.read r ≠ s.read r →
    r ≠ 0 ∧ ∃ i, decode (s.mem.get s.pc.toNat) = .instr i ∧ destination i = some r

/-- No instruction but a taken `beq` and a `jalr` makes the pc anything but `pc + 1` (R25, R26), and a raise leaves it. -/
def Obligations.OnlyControlTransfersRedirectThePc : Prop :=
  ∀ s t : State, step s = .next t → t.pc ≠ s.pc + 1 →
    t = { s with runState := .haltedAddress } ∨
    (∃ (a b : Reg) (imm : Word), decode (s.mem.get s.pc.toNat) = .instr (.beq a b imm) ∧ s.read a = s.read b ∧
      t.pc = s.pc + 1 + imm) ∨
    (∃ a b : Reg, decode (s.mem.get s.pc.toNat) = .instr (.jalr a b))

/-- Self-modifying code (R50, which the spec marks as derived): a `sw` at the pc that stores to the word after itself
changes the very next instruction executed. -/
def Obligations.StoreIsSeenByTheNextFetch : Prop :=
  ∀ (s t : State) (a b : Reg) (imm : Word) (i : Instr), step s = .next t →
    decode (s.mem.get s.pc.toNat) = .instr (.sw a b imm) → s.operandAddress b imm = s.pc + 1 →
    t.runState = .running → decode (s.read a) = .instr i → step t = exec i t

/-- The status outputs of R163. In every state a raise ends in, the offending word is the word at the pc and the
offending opcode its bits 15:13; in `HALTED_ADDRESS` the offending address is the effective address of that word's `regB`
and `imm7` in the registers. After a step that ends in `HALTED_ADDRESS` (decision D1) these are the word that was
fetched, its opcode, and, recomputed exactly, the number the addressing mode gave in the state before the step, which is
out of range. That the outputs have no value where R163 does not call them meaningful is the model's choice (log entry
18). -/
def Obligations.StatusOutputsNameTheOffendingAccess : Prop :=
  (∀ s : State, let w := s.memRead s.pc
    (s.runState = .haltedIllegal ∨ s.runState = .haltedAddress →
      s.offendingWord = some w ∧ s.offendingOpcode = some (w.extractLsb' 13 3)) ∧
    (s.runState = .haltedAddress →
      s.offendingAddress = some (s.operandAddress (decodeFields w).regB (decodeFields w).imm7)) ∧
    (s.runState = .running ∨ s.runState = .haltedNormal → s.offendingWord = none ∧ s.offendingOpcode = none) ∧
    (s.runState ≠ .haltedAddress → s.offendingAddress = none)) ∧
  (∀ s t : State, step s = .next t → t.runState = .haltedAddress →
    let w := s.mem.get s.pc.toNat
    let ea := (x s (slice w.toNat 9 7) * 2 ^ 8 + sextNat (slice w.toNat 6 0)) % 65536
    t.pc = s.pc ∧ t.offendingWord = some w ∧ t.offendingOpcode = some (w.extractLsb' 13 3) ∧
      t.offendingAddress = some (s.operandAddress (decodeFields w).regB (decodeFields w).imm7) ∧
      t.offendingAddress = some (pattern ea) ∧ Config.memSize ≤ ea)

/-! ## The run -/

/-- The end of a run (R90): running under fuel answers `ended n t` exactly when `n` is within the fuel and `t`, the state
after `n` steps, is the first terminal state of the run; and it answers `outOfFuel t` exactly when `t`, the state after
as many steps as there was fuel, and all before it are `RUNNING`. -/
def Obligations.FuelledRunEndsAtTheFirstTerminalState : Prop :=
  ∀ (s t : State) (fuel n : Nat),
    (s.runFuel fuel = .ended n t ↔ n ≤ fuel ∧ s.EndsAfter n t) ∧
    (s.runFuel fuel = .outOfFuel t ↔
      s.after fuel = some t ∧ ∀ m ≤ fuel, ∀ u, s.after m = some u → u.runState = .running)

/-- A run that starts in a state of the invariant, as every launch state is, stays in it and never stops for want of a
step: under any fuel it ends, in `HALTED_NORMAL` or `HALTED_ADDRESS`, or it has not ended (R90, R180, R181). -/
def Obligations.RunsEndInATerminalStateOrGoOn : Prop :=
  ∀ (s : State) (fuel : Nat), s.Inv →
    (∃ n t, s.runFuel fuel = .ended n t ∧ t.Inv ∧ (t.runState = .haltedNormal ∨ t.runState = .haltedAddress)) ∨
    (∃ t, s.runFuel fuel = .outOfFuel t ∧ t.Inv ∧ t.runState = .running)

/-- A run need not end (R90): at any address, a `beq` of any two registers that hold one value (whether one register or
two) with `imm7 = -1` branches to itself (R140's corner case), and no fuel ends the run of a `RUNNING` machine that stands
at it. `beq r0,r0,#-1`, word `0xC07F`, is such an instruction in every state: it compares register 0 with itself. -/
def Obligations.BranchToItselfNeverEnds : Prop :=
  (∀ (s : State) (a b : Reg), s.runState = .running → s.pc.toNat < Config.memSize →
    decode (s.mem.get s.pc.toNat) = .instr (.beq a b 0xFFFF) → s.read a = s.read b →
    step s = .next s ∧ ∀ fuel, s.runFuel fuel = .outOfFuel s) ∧
  decode 0xC07F = .instr (.beq 0 0 0xFFFF)

/-- The image a run starts from (R165, R166; byte order and zero fill are the spec's decisions D7 and D6, log entries 13
and 2): word `k` of memory is file byte `2k` plus 256 times byte `2k + 1`, a missing byte counting as 0; an image of more
than 1024 bytes is rejected. -/
def Obligations.ImageBytesBecomeMemoryWords : Prop :=
  ∀ (regInit : Vector Word 7) (image : List Byte),
    (image.length ≤ 1024 → ∃ s, launchImage regInit image = some s ∧ s.pc = 0 ∧ s.runState = .running ∧
      ∀ k < Config.memSize,
        (s.mem.get k).toNat = (image.getD (2 * k) 0).toNat + 256 * (image.getD (2 * k + 1) 0).toNat) ∧
    (1024 < image.length → launchImage regInit image = none)
end

