-- ==== Sys2Proof/Laws/Decode.lean ====
section
/-! SUPPORT. What the decoder reads from a word of each format, and that every word is one of each: the bridge between
the layouts of spec/30_encoding.md rules R61 to R65 and `decodeFields`. -/

namespace Sys2Proof

/-- Concatenation as arithmetic (R6: the left part in the more significant position). -/
theorem toNat_append_eq {n m : Nat} (x : BitVec n) (y : BitVec m) : (x ++ y).toNat = x.toNat * 2 ^ m + y.toNat := by
  rw [BitVec.toNat_append, ← Nat.shiftLeft_add_eq_or_of_lt y.isLt, Nat.shiftLeft_eq]

/-- A slice of a concatenation, on numbers. -/
theorem extractLsb'_eq_of_toNat {n len : Nat} {w : BitVec n} {v : BitVec len} (start : Nat)
    (h : w.toNat / 2 ^ start % 2 ^ len = v.toNat) : w.extractLsb' start len = v := by
  apply BitVec.eq_of_toNat_eq
  rw [BitVec.extractLsb'_toNat, Nat.shiftRight_eq_div_pow, h]

/-- Format R (R61). -/
theorem decodeFields_formatR (p : BitVec 3) (a b : Reg) (u : BitVec 4) (c : Reg) :
    decodeFields (p ++ a ++ b ++ u ++ c) = ⟨p, a, b, c, sext16 (u ++ c), zext16 (b ++ u ++ c)⟩ := by
  have hp : p.toNat < 8 := p.isLt
  have ha : a.toNat < 8 := a.isLt
  have hb : b.toNat < 8 := b.isLt
  have hu : u.toNat < 16 := u.isLt
  have hc : c.toNat < 8 := c.isLt
  simp only [decodeFields, Fields.mk.injEq]
  refine ⟨extractLsb'_eq_of_toNat _ ?_, extractLsb'_eq_of_toNat _ ?_, extractLsb'_eq_of_toNat _ ?_,
    extractLsb'_eq_of_toNat _ ?_, congrArg sext16 (extractLsb'_eq_of_toNat _ ?_),
    congrArg zext16 (extractLsb'_eq_of_toNat _ ?_)⟩ <;>
  · simp only [toNat_append_eq, Config.selectorBits, Config.imm7Bits, Config.imm10Bits]
    omega

/-- Formats I and J (R62, R65). -/
theorem decodeFields_formatI (p : BitVec 3) (a b : Reg) (v : BitVec 7) :
    decodeFields (p ++ a ++ b ++ v) = ⟨p, a, b, v.setWidth 3, sext16 v, zext16 (b ++ v)⟩ := by
  have hp : p.toNat < 8 := p.isLt
  have ha : a.toNat < 8 := a.isLt
  have hb : b.toNat < 8 := b.isLt
  have hv : v.toNat < 128 := v.isLt
  simp only [decodeFields, Fields.mk.injEq]
  refine ⟨extractLsb'_eq_of_toNat _ ?_, extractLsb'_eq_of_toNat _ ?_, extractLsb'_eq_of_toNat _ ?_,
    extractLsb'_eq_of_toNat _ ?_, congrArg sext16 (extractLsb'_eq_of_toNat _ ?_),
    congrArg zext16 (extractLsb'_eq_of_toNat _ ?_)⟩ <;>
  · simp only [toNat_append_eq, BitVec.toNat_setWidth, Config.selectorBits, Config.imm7Bits,
      Config.imm10Bits]
    omega

/-- Format U (R63). -/
theorem decodeFields_formatU (p : BitVec 3) (a : Reg) (v : BitVec 10) :
    decodeFields (p ++ a ++ v) = ⟨p, a, v.extractLsb' 7 3, v.setWidth 3, sext16 (v.setWidth 7), zext16 v⟩ := by
  have hp : p.toNat < 8 := p.isLt
  have ha : a.toNat < 8 := a.isLt
  have hv : v.toNat < 1024 := v.isLt
  simp only [decodeFields, Fields.mk.injEq]
  refine ⟨extractLsb'_eq_of_toNat _ ?_, extractLsb'_eq_of_toNat _ ?_, extractLsb'_eq_of_toNat _ ?_,
    extractLsb'_eq_of_toNat _ ?_, congrArg sext16 (extractLsb'_eq_of_toNat _ ?_),
    congrArg zext16 (extractLsb'_eq_of_toNat _ ?_)⟩ <;>
  · simp only [toNat_append_eq, BitVec.toNat_setWidth, BitVec.extractLsb'_toNat, Nat.shiftRight_eq_div_pow,
      Config.selectorBits, Config.imm7Bits, Config.imm10Bits]
    omega

/-- Every word is laid out in format R. -/
theorem exists_formatR (w : Word) : ∃ (p : BitVec 3) (a b : Reg) (u : BitVec 4) (c : Reg), w = p ++ a ++ b ++ u ++ c := by
  refine ⟨w.extractLsb' 13 3, w.extractLsb' 10 3, w.extractLsb' 7 3, w.extractLsb' 3 4, w.extractLsb' 0 3, ?_⟩
  have hw : w.toNat < 65536 := w.isLt
  apply BitVec.eq_of_toNat_eq
  simp only [BitVec.extractLsb'_toNat, toNat_append_eq, Nat.shiftRight_eq_div_pow]
  omega

/-- Every word is laid out in formats I and J. -/
theorem exists_formatI (w : Word) : ∃ (p : BitVec 3) (a b : Reg) (v : BitVec 7), w = p ++ a ++ b ++ v := by
  refine ⟨w.extractLsb' 13 3, w.extractLsb' 10 3, w.extractLsb' 7 3, w.extractLsb' 0 7, ?_⟩
  have hw : w.toNat < 65536 := w.isLt
  apply BitVec.eq_of_toNat_eq
  simp only [BitVec.extractLsb'_toNat, toNat_append_eq, Nat.shiftRight_eq_div_pow]
  omega

/-- Every word is laid out in format U. -/
theorem exists_formatU (w : Word) : ∃ (p : BitVec 3) (a : Reg) (v : BitVec 10), w = p ++ a ++ v := by
  refine ⟨w.extractLsb' 13 3, w.extractLsb' 10 3, w.extractLsb' 0 10, ?_⟩
  have hw : w.toNat < 65536 := w.isLt
  apply BitVec.eq_of_toNat_eq
  simp only [BitVec.extractLsb'_toNat, toNat_append_eq, Nat.shiftRight_eq_div_pow]
  omega

end Sys2Proof
end

