-- ==== Sys2Proof/Laws/Memory.lean ====
section
/-! SUPPORT. The laws of memory: what a write changes (spec/20_memory.md rule R47), and that every memory operation
keeps the canonical form `Memory.wf`. -/

namespace Sys2Proof.Machine

theorem Memory.get_erase (m : Memory) (a x : Nat) :
    (m.erase a).get x = if x = a then 0 else m.get x := by
  induction m with
  | nil => simp [Memory.erase, Memory.get]
  | cons e m ih =>
    obtain ⟨k, v⟩ := e
    simp only [Memory.erase, Memory.get]
    split
    · rw [ih]; grind
    · simp only [Memory.get, ih]; grind

/-- No entry of the address, so a new one of it is found. -/
theorem Memory.get_insert (m : Memory) (a x : Nat) (v : Word) (h : ∀ p ∈ m, p.1 ≠ a) :
    (m.insert a v).get x = if x = a then v else m.get x := by
  induction m with
  | nil => simp only [Memory.insert, Memory.get]; grind
  | cons e m ih =>
    obtain ⟨k, w⟩ := e
    have hk : k ≠ a := h (k, w) (by simp)
    have ih' := ih fun p hp => h p (by simp [hp])
    simp only [Memory.insert]
    split
    · simp only [Memory.get]; grind
    · simp only [Memory.get, ih']; grind

theorem Memory.erase_ne (m : Memory) (a : Nat) : ∀ p ∈ m.erase a, p.1 ≠ a := by
  induction m with
  | nil => simp [Memory.erase]
  | cons e m ih => grind [Memory.erase]

/-- A write changes the addressed word and no other; in every memory, canonical or not. -/
theorem Memory.get_set (m : Memory) (a x : Nat) (v : Word) :
    (m.set a v).get x = if x = a then v else m.get x := by
  unfold Memory.set
  split
  · rename_i h; rw [Memory.get_erase, h]
  · rw [Memory.get_insert _ _ _ _ (Memory.erase_ne m a), Memory.get_erase]; grind

theorem Memory.wfFrom_mono {m : Memory} {lo lo' : Nat} (h : lo' ≤ lo) (hm : Memory.wfFrom lo m = true) :
    Memory.wfFrom lo' m = true := by
  cases m with
  | nil => rfl
  | cons e m => grind [Memory.wfFrom]

theorem Memory.wfFrom_erase {m : Memory} {lo : Nat} (a : Nat) (hm : Memory.wfFrom lo m = true) :
    Memory.wfFrom lo (m.erase a) = true := by
  induction m generalizing lo with
  | nil => rfl
  | cons e m ih =>
    obtain ⟨k, v⟩ := e
    simp only [Memory.wfFrom, Bool.and_eq_true, decide_eq_true_eq] at hm
    obtain ⟨⟨⟨h1, h2⟩, h3⟩, h4⟩ := hm
    simp only [Memory.erase]
    split
    · exact Memory.wfFrom_mono (by omega) (ih h4)
    · simp only [Memory.wfFrom, Bool.and_eq_true, decide_eq_true_eq]
      exact ⟨⟨⟨h1, h2⟩, h3⟩, ih h4⟩

theorem Memory.wfFrom_insert {m : Memory} {lo a : Nat} {v : Word} (hlo : lo ≤ a) (ha : a < Config.memSize) (hv : v ≠ 0)
    (hne : ∀ p ∈ m, p.1 ≠ a) (hm : Memory.wfFrom lo m = true) : Memory.wfFrom lo (m.insert a v) = true := by
  induction m generalizing lo with
  | nil => simp [Memory.insert, Memory.wfFrom, hlo, ha, show ¬ v = 0#16 from hv]
  | cons e m ih =>
    obtain ⟨k, w⟩ := e
    simp only [Memory.wfFrom, Bool.and_eq_true, decide_eq_true_eq] at hm
    obtain ⟨⟨⟨h1, h2⟩, h3⟩, h4⟩ := hm
    have hk : k ≠ a := hne (k, w) (by simp)
    simp only [Memory.insert]
    split
    · rename_i hak
      simp only [Memory.wfFrom, Bool.and_eq_true, decide_eq_true_eq]
      exact ⟨⟨⟨hlo, ha⟩, by simpa using hv⟩, ⟨⟨Nat.succ_le_of_lt hak, h2⟩, h3⟩, h4⟩
    · simp only [Memory.wfFrom, Bool.and_eq_true, decide_eq_true_eq]
      exact ⟨⟨⟨h1, h2⟩, h3⟩, ih (by omega) (fun p hp => hne p (by simp [hp])) h4⟩

/-- A write to a word of the memory keeps the canonical form. -/
theorem Memory.wf_set {m : Memory} {a : Nat} (v : Word) (ha : a < Config.memSize) (hm : m.wf = true) :
    (m.set a v).wf = true := by
  unfold Memory.wf Memory.set at *
  split
  · exact Memory.wfFrom_erase a hm
  · rename_i hv
    exact Memory.wfFrom_insert (Nat.zero_le a) ha hv (Memory.erase_ne m a) (Memory.wfFrom_erase a hm)

theorem Memory.wfFrom_ofWordsFrom (ws : List Word) (a : Nat) : Memory.wfFrom a (Memory.ofWordsFrom a ws) = true := by
  induction ws generalizing a with
  | nil => rfl
  | cons w ws ih =>
    simp only [Memory.ofWordsFrom]
    split
    · rfl
    · split
      · exact Memory.wfFrom_mono (Nat.le_succ a) (ih (a + 1))
      · rename_i h hw
        simp [Memory.wfFrom, ih (a + 1), Nat.lt_of_not_le h, show ¬ w = 0#16 from hw]

/-- The memory after reset is in canonical form. -/
theorem State.reset_mem_wf : State.reset.mem.wf = true := rfl

end Sys2Proof.Machine
end

