-- ==== Sys2Proof/Laws/State.lean ====
section
/-! SUPPORT. One lemma per field per state operation, and the register file's laws (spec/10_state.md rules R21 to R23),
so that no later proof unfolds a record update. -/

namespace Sys2Proof.Machine

/-! ### `State.write` -/

@[simp] theorem State.write_zero (s : State) (v : Word) : s.write 0#3 v = s := by simp [State.write]

@[simp] theorem State.write_pc (s : State) (i : Reg) (v : Word) : (s.write i v).pc = s.pc := by
  unfold State.write; split <;> rfl

@[simp] theorem State.write_mem (s : State) (i : Reg) (v : Word) : (s.write i v).mem = s.mem := by
  unfold State.write; split <;> rfl

@[simp] theorem State.write_runState (s : State) (i : Reg) (v : Word) : (s.write i v).runState = s.runState := by
  unfold State.write; split <;> rfl

/-! ### `State.read` -/

@[simp] theorem State.read_zero (s : State) : s.read 0#3 = 0#16 := by simp [State.read]

/-- A register read depends on the register file alone. -/
theorem State.read_congr {s t : State} (h : t.regs = s.regs) (r : Reg) : t.read r = s.read r := by
  simp [State.read, h]

theorem State.read_write_same (s : State) {i : Reg} (hi : i ≠ 0) (v : Word) : (s.write i v).read i = v := by
  have hi' : ¬ i = 0#3 := hi
  simp [State.read, State.write, hi']

theorem State.read_write_ne (s : State) {i r : Reg} (h : r ≠ i) (v : Word) : (s.write i v).read r = s.read r := by
  by_cases hr : r = 0
  · simp [hr]
  by_cases hi : i = 0
  · simp [hi]
  have hn : i.toNat - 1 ≠ r.toNat - 1 := by
    have h0 : r.toNat ≠ 0 := fun e => hr (BitVec.eq_of_toNat_eq e)
    have h1 : i.toNat ≠ 0 := fun e => hi (BitVec.eq_of_toNat_eq e)
    have h2 : r.toNat ≠ i.toNat := fun e => h (BitVec.eq_of_toNat_eq e)
    omega
  have hr' : ¬ r = 0#3 := hr
  have hi' : ¬ i = 0#3 := hi
  simp [State.read, State.write, hr', hi', hn]

/-! ### `State.retire` -/

@[simp] theorem State.retire_pc (s : State) (t : Word) : (s.retire t).pc = t := by
  unfold State.retire; split <;> rfl

@[simp] theorem State.retire_mem (s : State) (t : Word) : (s.retire t).mem = s.mem := by
  unfold State.retire; split <;> rfl

@[simp] theorem State.retire_regs (s : State) (t : Word) : (s.retire t).regs = s.regs := by
  unfold State.retire; split <;> rfl

@[simp] theorem State.retire_read (s : State) (t : Word) (r : Reg) : (s.retire t).read r = s.read r :=
  State.read_congr (by simp) r

@[simp] theorem State.retire_runState (s : State) (t : Word) :
    (s.retire t).runState = if inRange t then s.runState else .haltedNormal := by
  unfold State.retire; split <;> rfl

/-! ### `State.raise` -/

@[simp] theorem State.raise_pc (s : State) (e : RunState) : (s.raise e).pc = s.pc := rfl
@[simp] theorem State.raise_mem (s : State) (e : RunState) : (s.raise e).mem = s.mem := rfl
@[simp] theorem State.raise_runState (s : State) (e : RunState) : (s.raise e).runState = e := rfl
@[simp] theorem State.raise_read (s : State) (e : RunState) (r : Reg) : (s.raise e).read r = s.read r := rfl

/-! ### `State.memWrite` -/

@[simp] theorem State.memWrite_pc (s : State) (a v : Word) : (s.memWrite a v).pc = s.pc := rfl
@[simp] theorem State.memWrite_runState (s : State) (a v : Word) : (s.memWrite a v).runState = s.runState := rfl
@[simp] theorem State.memWrite_mem (s : State) (a v : Word) : (s.memWrite a v).mem = s.mem.set a.toNat v := rfl
@[simp] theorem State.memWrite_read (s : State) (a v : Word) (r : Reg) : (s.memWrite a v).read r = s.read r := rfl

/-! ### `State.writeback` -/

@[simp] theorem State.writeback_pc (s : State) (i : Reg) (v : Word) : (s.writeback i v).pc = s.pc + 1 := by
  simp [State.writeback]

@[simp] theorem State.writeback_mem (s : State) (i : Reg) (v : Word) : (s.writeback i v).mem = s.mem := by
  simp [State.writeback]

@[simp] theorem State.writeback_read (s : State) (i r : Reg) (v : Word) :
    (s.writeback i v).read r = (s.write i v).read r := by simp [State.writeback]

@[simp] theorem State.writeback_runState (s : State) (i : Reg) (v : Word) :
    (s.writeback i v).runState = if inRange (s.pc + 1) then s.runState else .haltedNormal := by
  simp [State.writeback]

end Sys2Proof.Machine
end

