-- ==== Sys2Proof/Laws/Exec.lean ====
section
/-! SUPPORT. What each shared operation and the step can do, said once: the provers cite these lemmas and do not unfold
the meanings. -/

namespace Sys2Proof.Machine

theorem memSize_eq : Config.memSize = 512 := rfl

theorem inRange_iff (a : Word) : inRange a = true ↔ a.toNat < Config.memSize := by simp [inRange]

theorem not_inRange_iff (a : Word) : ¬ inRange a = true ↔ Config.memSize ≤ a.toNat := by simp [inRange]

/-- The effective address as a number (R120). -/
theorem effectiveAddress_toNat (base imm : Word) :
    (effectiveAddress base imm).toNat = (base.toNat * 2 ^ 8 + imm.toNat) % 65536 := by
  simp [effectiveAddress, Config.baseShift, Nat.shiftLeft_eq]

theorem execSw_inRange {s : State} {a b : Reg} {imm : Word} (h : inRange (s.operandAddress b imm) = true) :
    execSw a b imm s = .next ((s.memWrite (s.operandAddress b imm) (s.read a)).retire (s.pc + 1)) := by
  simp [execSw, h]

theorem execSw_outOfRange {s : State} {a b : Reg} {imm : Word} (h : ¬ inRange (s.operandAddress b imm) = true) :
    execSw a b imm s = .next s.raiseAddressError := by simp [execSw, h]

theorem execLw_inRange {s : State} {a b : Reg} {imm : Word} (h : inRange (s.operandAddress b imm) = true) :
    execLw a b imm s = .next (s.writeback a (s.memRead (s.operandAddress b imm))) := by simp [execLw, h]

theorem execLw_outOfRange {s : State} {a b : Reg} {imm : Word} (h : ¬ inRange (s.operandAddress b imm) = true) :
    execLw a b imm s = .next s.raiseAddressError := by simp [execLw, h]

/-- The memory a meaning leaves: the old one, or the old one with one in-range word stored. -/
inductive MemChange (s t : State) : Prop
  | same (h : t.mem = s.mem)
  | stored (a v : Word) (ha : inRange a = true) (h : t.mem = s.mem.set a.toNat v)

/-- Everything a meaning can do: it raises AddressError, or it completes and passes the termination test. -/
inductive ExecResult (s t : State) : Prop
  | raised (h : t = s.raiseAddressError)
  | retired (u : State) (target : Word) (h : t = u.retire target) (hrun : u.runState = s.runState) (hmem : MemChange s u)

/-- Every instruction answers a next state, and it is one of the two of `ExecResult`. -/
theorem exec_next (i : Instr) (s : State) : ∃ t, exec i s = .next t ∧ ExecResult s t := by
  cases i with
  | add a b c => exact ⟨_, rfl, .retired _ _ rfl (by simp) (.same (by simp))⟩
  | addi a b imm => exact ⟨_, rfl, .retired _ _ rfl (by simp) (.same (by simp))⟩
  | nand a b c => exact ⟨_, rfl, .retired _ _ rfl (by simp) (.same (by simp))⟩
  | lui a imm => exact ⟨_, rfl, .retired _ _ rfl (by simp) (.same (by simp))⟩
  | sw a b imm =>
    simp only [exec, execSw]
    split
    · rename_i h
      exact ⟨_, rfl, .retired _ _ rfl (by simp) (.stored _ _ h rfl)⟩
    · exact ⟨_, rfl, .raised rfl⟩
  | lw a b imm =>
    simp only [exec, execLw]
    split
    · exact ⟨_, rfl, .retired _ _ rfl (by simp) (.same (by simp))⟩
    · exact ⟨_, rfl, .raised rfl⟩
  | beq a b imm => exact ⟨_, rfl, .retired _ _ rfl rfl (.same rfl)⟩
  | jalr a b => exact ⟨_, rfl, .retired _ _ rfl (by simp) (.same (by simp))⟩

/-- What a step that answers a next state has done: the machine was `RUNNING` with its pc in memory, and the fetched
word's instruction answered that state, or the dispatcher's default arm was taken. -/
theorem step_next_cases {s t : State} (h : step s = .next t) :
    s.runState = .running ∧ inRange s.pc = true ∧
      ((∃ i, decode (s.memRead s.pc) = .instr i ∧ exec i s = .next t) ∨
        (∃ n, decode (s.memRead s.pc) = .illegalOpcode n ∧ t = s.raiseIllegalOpcode)) := by
  unfold step at h
  split at h <;> rename_i hrun
  · by_cases hpc : inRange s.pc = true
    · refine ⟨hrun, hpc, ?_⟩
      simp only [State.fetch, hpc, if_true] at h
      cases hd : decode (s.memRead s.pc) with
      | instr i => exact .inl ⟨i, rfl, by simpa [hd] using h⟩
      | illegalOpcode n => exact .inr ⟨n, rfl, by simpa [hd] using h.symm⟩
    · simp [State.fetch, hpc] at h
  all_goals simp at h

end Sys2Proof.Machine
end

