-- ==== Sys2Proof/Laws/PerInstr.lean ====
section
/-! SUPPORT. The per-instruction family `OpcodeMatch`: the encoder's word carries the instruction's own match value under
the mask `0xE000`, whatever the unused bits are (spec/30_encoding.md rule R66). -/

namespace Sys2Proof.Laws.OpcodeMatch

/-- The column "match" of R66. -/
def matchWord : Instr → Word
  | .add _ _ _ => 0x0000
  | .addi _ _ _ => 0x2000
  | .nand _ _ _ => 0x4000
  | .lui _ _ => 0x6000
  | .sw _ _ _ => 0x8000
  | .lw _ _ _ => 0xA000
  | .beq _ _ _ => 0xC000
  | .jalr _ _ => 0xE000

def Statement (i : Instr) : Prop := ∀ unused, encodeWith unused i &&& 0xE000#16 = matchWord i

/-- Under the mask only the top three bits are left. -/
theorem mask_append (op : BitVec 3) (r : BitVec 13) : (op ++ r) &&& 0xE000#16 = op ++ 0#13 := by
  rw [show (0xE000#16 : BitVec (3 + 13)) = 7#3 ++ 0#13 from rfl, BitVec.and_append]
  congr 1
  · revert op; decide
  · exact BitVec.and_zero

/-- Format R: the opcode in front of the other thirteen bits. -/
theorem append_formatR (p : BitVec 3) (a b : Reg) (u : BitVec 4) (c : Reg) :
    (p ++ a ++ b ++ u ++ c : Word) = p ++ (a ++ b ++ u ++ c : BitVec 13) := by
  apply BitVec.eq_of_toNat_eq
  simp only [BitVec.toNat_append, Nat.shiftLeft_or_distrib, ← Nat.shiftLeft_add, Nat.or_assoc]

/-- Formats I and J. -/
theorem append_formatI (p : BitVec 3) (a b : Reg) (v : BitVec 7) :
    (p ++ a ++ b ++ v : Word) = p ++ (a ++ b ++ v : BitVec 13) := by
  apply BitVec.eq_of_toNat_eq
  simp only [BitVec.toNat_append, Nat.shiftLeft_or_distrib, ← Nat.shiftLeft_add, Nat.or_assoc]

/-- Format U. -/
theorem append_formatU (p : BitVec 3) (a : Reg) (v : BitVec 10) :
    (p ++ a ++ v : Word) = p ++ (a ++ v : BitVec 13) := by
  apply BitVec.eq_of_toNat_eq
  simp only [BitVec.toNat_append, Nat.shiftLeft_or_distrib, ← Nat.shiftLeft_add, Nat.or_assoc]

theorem add (a b c : Reg) : Statement (.add a b c) := fun u =>
  (congrArg (· &&& 0xE000#16) (append_formatR 0 a b (u.setWidth 4) c)).trans (mask_append _ _)

theorem addi (a b : Reg) (imm : Word) : Statement (.addi a b imm) := fun _ =>
  (congrArg (· &&& 0xE000#16) (append_formatI 1 a b (imm.setWidth 7))).trans (mask_append _ _)

theorem nand (a b c : Reg) : Statement (.nand a b c) := fun u =>
  (congrArg (· &&& 0xE000#16) (append_formatR 2 a b (u.setWidth 4) c)).trans (mask_append _ _)

theorem lui (a : Reg) (imm : Word) : Statement (.lui a imm) := fun _ =>
  (congrArg (· &&& 0xE000#16) (append_formatU 3 a (imm.setWidth 10))).trans (mask_append _ _)

theorem sw (a b : Reg) (imm : Word) : Statement (.sw a b imm) := fun _ =>
  (congrArg (· &&& 0xE000#16) (append_formatI 4 a b (imm.setWidth 7))).trans (mask_append _ _)

theorem lw (a b : Reg) (imm : Word) : Statement (.lw a b imm) := fun _ =>
  (congrArg (· &&& 0xE000#16) (append_formatI 5 a b (imm.setWidth 7))).trans (mask_append _ _)

theorem beq (a b : Reg) (imm : Word) : Statement (.beq a b imm) := fun _ =>
  (congrArg (· &&& 0xE000#16) (append_formatI 6 a b (imm.setWidth 7))).trans (mask_append _ _)

theorem jalr (a b : Reg) : Statement (.jalr a b) := fun u =>
  (congrArg (· &&& 0xE000#16) (append_formatI 7 a b u)).trans (mask_append _ _)

end Sys2Proof.Laws.OpcodeMatch
end

