-- ==== Sys2Proof/Laws/Run.lean ====
section
/-! SUPPORT. The run, one step at a time: how `State.after` and `State.runFuel` unfold, and the induction over a run
packaged once. -/

namespace Sys2Proof.Machine

@[simp] theorem State.after_zero (s : State) : s.after 0 = some s := rfl

/-- A run of `n + 1` steps is a step and a run of `n` steps. -/
theorem State.after_succ {s t : State} (h : step s = .next t) (n : Nat) : s.after (n + 1) = t.after n := by
  simp [State.after, h]

theorem State.after_succ_cases {s u : State} {n : Nat} (h : s.after (n + 1) = some u) :
    ∃ t, step s = .next t ∧ t.after n = some u := by
  simp only [State.after] at h
  split at h
  · exact ⟨_, ‹_›, h⟩
  · cases h
  · cases h

@[simp] theorem State.terminal_iff (s : State) : s.terminal = true ↔ s.runState ≠ .running := by
  simp [State.terminal]

/-- A terminal state ends its own run at once, whatever the fuel. -/
theorem State.runFuel_terminal {s : State} (h : s.terminal = true) (fuel : Nat) : s.runFuel fuel = .ended 0 s := by
  cases fuel <;> simp only [State.runFuel, h, if_true]

theorem State.runFuel_step {s t : State} (hs : s.terminal = false) (h : step s = .next t) (fuel : Nat) :
    s.runFuel (fuel + 1) = (t.runFuel fuel).addStep := by
  simp [State.runFuel, hs, h]

/-- What holds at the start and is kept by every step holds in every state of a run. -/
theorem State.after_induction {P : State → Prop} (hstep : ∀ s t, P s → step s = .next t → P t) {s t : State} {n : Nat}
    (hs : P s) (h : s.after n = some t) : P t := by
  induction n generalizing s with
  | zero => cases h; exact hs
  | succ n ih =>
    obtain ⟨u, hu, hut⟩ := State.after_succ_cases h
    exact ih (hstep s u hs hu) hut

end Sys2Proof.Machine
end

