-- ==== Sys2Proof/Tests/Slice0.lean ====
section
/-! SUPPORT. Tests. Expected results are the rows of spec/95_test_vectors.md (named in each comment) or hand calculation
from the rules; then, for every statement with hypotheses, a witness that meets them. -/

namespace Sys2Proof.Tests

open Sys2Proof Sys2Proof.Machine Sys2Proof.Claims

/-- A `RUNNING` state. -/
def st (pc : Word) (x1 x2 x3 x4 : Word) (mem : Memory) : State :=
  { regs := #v[x1, x2, x3, x4, 0, 0, 0], pc := pc, mem := mem, runState := .running }

/-- The state after one step, the old one where there is none. -/
def stepped (s : State) : State :=
  match step s with
  | .next t => t
  | .fault _ => s
  | .refused _ => s

/-- pc, loop state, and one register after one step of one instruction word at `s.pc`. -/
def run (s : State) (w : Word) (r : Reg) : Word × RunState × Word :=
  let t := stepped (s.memWrite s.pc w)
  (t.pc, t.runState, t.read r)

/-! ### Well-formedness: an ill-formed term for each check, refused -/

theorem test_wf_addi_64 : ¬ (Instr.addi 1 0 64).WellFormed := by decide
theorem test_wf_addi_minus_65 : ¬ (Instr.addi 1 0 0xFFBF).WellFormed := by decide
theorem test_wf_lui_1024 : ¬ (Instr.lui 1 1024).WellFormed := by decide
theorem test_wf_sw_64 : ¬ (Instr.sw 1 0 64).WellFormed := by decide
theorem test_wf_lw_minus_65 : ¬ (Instr.lw 1 0 0xFFBF).WellFormed := by decide
theorem test_wf_beq_64 : ¬ (Instr.beq 1 0 64).WellFormed := by decide
theorem test_wf_bounds : (Instr.addi 1 0 63).WellFormed ∧ (Instr.beq 1 0 0xFFC0).WellFormed ∧
    (Instr.lui 1 1023).WellFormed := by decide

/-! ### Decoding: words written out bit by bit (R61 to R66) -/

-- 000 | 011 | 001 | 0000 | 010, then with the ignored bits 1111
theorem test_decode_add : decode 0b0000110010000010 = .instr (.add 3 1 2) ∧
    decode 0b0000110011111010 = .instr (.add 3 1 2) := by decide
-- 001 | 001 | 000 | 1000000
theorem test_decode_addi : decode 0b0010010001000000 = .instr (.addi 1 0 0xFFC0) := by decide
-- 010 | 101 | 100 | 0000 | 100
theorem test_decode_nand : decode 0b0101011000000100 = .instr (.nand 5 4 4) := by decide
-- 011 | 110 | 1111111111
theorem test_decode_lui : decode 0b0111101111111111 = .instr (.lui 6 0x3FF) := by decide
-- 100 | 011 | 001 | 1111111
theorem test_decode_sw : decode 0b1000110011111111 = .instr (.sw 3 1 0xFFFF) := by decide
-- 101 | 011 | 000 | 0100000
theorem test_decode_lw : decode 0b1010110000100000 = .instr (.lw 3 0 32) := by decide
-- 110 | 000 | 000 | 1111110
theorem test_decode_beq : decode 0b1100000001111110 = .instr (.beq 0 0 0xFFFE) := by decide
-- 111 | 111 | 010 | 1111111
theorem test_decode_jalr : decode 0b1111110101111111 = .instr (.jalr 7 2) := by decide
-- S10 and section 1: 0x2405
theorem test_encode_addi : encode (.addi 1 0 5) = 0x2405 := by decide
theorem test_decodeTableWord : decodeTableWord 16 0xE000 = some (.jalr 0 0) := by decide
theorem test_withFetchWord :
    (stepped (State.reset.withFetchWord 16 0x2405)).read 1 = 5 := by decide

/-! ### Instructions, two each -/

-- V-add 2 and 4
theorem test_add_wraps : run (st 0 0xFFFF 1 0x1234 0 []) 0x0C82 3 = (1, .running, 0) := by decide
theorem test_add_same_register : run (st 0 0x4001 0 0 0 []) 0x0481 1 = (1, .running, 0x8002) := by decide
-- V-addi 7 and 8
theorem test_addi_wraps_below_zero : run (st 0 0x0020 0 0 0 []) 0x28C0 2 = (1, .running, 0xFFE0) := by decide
theorem test_addi_register_zero : run (st 0 1 0 0 0 []) 0x2087 0 = (1, .running, 0) := by decide
-- V-nand 1 and 4
theorem test_nand_bits : run (st 0 0x00FF 0x0F0F 0 0 []) 0x4C82 3 = (1, .running, 0xFFF0) := by decide
theorem test_nand_not_boolean : run (st 0 1 2 0 0 []) 0x4C82 3 = (1, .running, 0xFFFF) := by decide
-- V-lui 2 and 6
theorem test_lui_clears : run (st 0 0xFFFF 0 0 0 []) 0x6400 1 = (1, .running, 0) := by decide
theorem test_lui_shifts : run (st 0 0 0 0 0 []) 0x66AA 1 = (1, .running, 0xAA80) := by decide
-- V-sw 3 and 5
theorem test_sw_last_word : (stepped (st 0 2 0 0xBEEF 0 [(0, 0x8CFF)])).mem = [(0, 0x8CFF), (511, 0xBEEF)] := by decide
theorem test_sw_517_raises :
    stepped (st 0 2 9 0 0 [(0, 0x8885)]) = { st 0 2 9 0 0 [(0, 0x8885)] with runState := .haltedAddress } := by decide
-- V-lw 3 and 6
theorem test_lw_base_is_destination : run (st 0 1 0 0 0 [(319, 0x8001)]) 0xA4BF 1 = (1, .running, 0x8001) := by decide
theorem test_lw_register_zero_raises : run (st 0 2 0 0 0 []) 0xA080 1 = (0, .haltedAddress, 2) := by decide
-- V-beq 7 and 13
theorem test_beq_wraps_below_zero : run (st 3 0 0 0 0 []) 0xC07B 1 = (0xFFFF, .haltedNormal, 0) := by decide
theorem test_beq_full_compare : run (st 5 0x8000 0 0 0 []) 0xC504 1 = (6, .running, 0x8000) := by decide
-- V-jalr 4 and 11
theorem test_jalr_same_register : run (st 4 0x0300 0 0 0 []) 0xE480 1 = (5, .running, 5) := by decide
theorem test_jalr_link_512 : run (st 511 0 3 0 0 []) 0xE500 1 = (3, .running, 0x0200) := by decide

/-! ### The loop, the status outputs, the image -/

-- V-add 8: the last word of memory
theorem test_runs_off_the_end : run (st 511 5 3 0 0 []) 0x0C82 3 = (512, .haltedNormal, 8) := by decide
-- P4: a store to the next word is what is fetched next
theorem test_self_modifying :
    (stepped (stepped (st 1 0x2807 0 0 0 [(1, 0x8402), (2, 0x2801)]))).read 2 = 7 := by decide
-- P5: offending word 8885, opcode 4, ea 0205
theorem test_status_outputs : let t := stepped (st 2 2 9 0 0 [(2, 0x8885)])
    (t.offendingWord, t.offendingOpcode, t.offendingAddress) = (some 0x8885, some 4, some 0x0205) := by decide
-- R166: 0x2405 is the file bytes 05 24; an odd last byte is a low byte
theorem test_image_bytes : wordsOfBytes [0x05, 0x24, 0x7F] = [0x2405, 0x007F] := by decide
theorem test_memory_zero_is_unlisted : Memory.set [(3, 7), (5, 9)] 5 0 = [(3, 7)] := by decide

/-! ### Witnesses: hypotheses that are met, clause by clause -/

theorem witness_DecodeOfEncodeReturnsTheInstruction : (Instr.addi 7 0 0xFFC0).WellFormed ∧
    (Instr.lui 7 1023).WellFormed := by decide

theorem witness_EncodeOfDecodeClearsIgnoredBits :
    decode 0xFFFF = .instr (.jalr 7 7) ∧ decode 0x0CFA = .instr (.add 3 1 2) := by decide

theorem witness_IgnoredBitsHaveNoEffect :
    ((0x0CFA : Word) &&& 0xE000 = 0x0000 ∧ (0x0CFA : Word) &&& 0xFF87 = 0x0C82 &&& 0xFF87) ∧
    ((0x5604 : Word) &&& 0xE000 = 0x4000 ∧ (0x5604 : Word) &&& 0xFF87 = 0x567C &&& 0xFF87) ∧
    ((0xFD7F : Word) &&& 0xE000 = 0xE000 ∧ (0xFD7F : Word) &&& 0xFF80 = 0xFD00 &&& 0xFF80) := by decide

theorem witness_CanonicalMemoriesWithEqualReadsAreEqual : ∃ m m' : Memory,
    m.wf = true ∧ m'.wf = true ∧ m ≠ [] ∧ ∀ a, m.get a = m'.get a :=
  ⟨[(0, 1), (511, 2)], [(0, 1), (511, 2)], by decide, by decide, by decide, fun _ => rfl⟩

/-- Bit 15: set in both sources, and set in one only. -/
theorem witness_NandIsBitwiseOnAllSixteenBits : let s := st 0 0x8000 0xFFFF 0x7FFF 0 []
    (15 < 16) ∧ (s.read 1).getLsbD 15 = true ∧ (s.read 2).getLsbD 15 = true ∧ (s.read 3).getLsbD 15 = false := by decide

/-- The last address of the memory, and a list that gives a word and leaves the next one out. -/
theorem witness_LaunchStateHoldsItsParameters : 511 < Config.memSize ∧
    ((State.launch #v[1, 2, 3, 4, 5, 6, 7] [0, 0x2405]).mem.get 1, (State.launch #v[1, 2, 3, 4, 5, 6, 7] [0, 0x2405]).mem.get 2)
      = (0x2405, 0) := by decide

/-- A `sw` and an `lw` that complete, the `lw` into another register than its base. -/
theorem witness_EffectiveAddressScalesTheBase : (∃ t, exec (.sw 2 1 (sext16 0x7F)) (st 0 2 9 0 0 []) = .next t) ∧
    (2 : Reg) ≠ 1 ∧ (∃ t, exec (.lw 2 1 (sext16 0x7F)) (st 0 2 9 0 0 []) = .next t ∧ t.read 2 = 0) :=
  ⟨⟨_, rfl⟩, by decide, ⟨_, rfl, by decide⟩⟩

theorem witness_DataAccessesReachThreeBands :
    (effectiveAddress 0 (sext16 63)).toNat = 63 ∧ (effectiveAddress 1 (sext16 0x40)).toNat = 192 ∧
    (effectiveAddress 1 (sext16 63)).toNat = 319 ∧ (effectiveAddress 2 (sext16 0x40)).toNat = 448 ∧
    (effectiveAddress 2 (sext16 0x7F)).toNat = 511 := by decide

/-- In range at both ends: `ea = 0` and `ea = 511`. -/
theorem witness_SwStoresInRange :
    (((st 0 0 0 0 0 []).read 1).toNat * 2 ^ 8 + sextNat (0 : BitVec 7).toNat) % 65536 = 0 ∧
    (((st 0 2 0 0 0 []).read 1).toNat * 2 ^ 8 + sextNat (0x7F : BitVec 7).toNat) % 65536 = 511 ∧
    511 < Config.memSize := by decide

theorem witness_LwLoadsInRange :
    (((st 0 2 0 0 0 []).read 1).toNat * 2 ^ 8 + sextNat (0x40 : BitVec 7).toNat) % 65536 < Config.memSize ∧
    (((st 0 2 0 0 0 []).read 1).toNat * 2 ^ 8 + sextNat (0x7F : BitVec 7).toNat) % 65536 < Config.memSize := by decide

/-- Out of range at both ends: `ea = 512` and `ea = 0xFFFF`. -/
theorem witness_OutOfRangeDataAddressRaises :
    (((st 0 2 0 0 0 []).read 1).toNat * 2 ^ 8 + sextNat (0 : BitVec 7).toNat) % 65536 = Config.memSize ∧
    (((st 0 0 0 0 0 []).read 1).toNat * 2 ^ 8 + sextNat (0x7F : BitVec 7).toNat) % 65536 = 65535 := by decide

theorem witness_NoOperationFormsOnlyAdvanceThePc : (st 0 7 8 0 0 []).read 1 ≠ (st 0 7 8 0 0 []).read 2 := by decide

/-- `addi r2,r1,#5` in two states that differ in the register it does not read. -/
theorem witness_OnlySourceRegistersMatter : let s := st 0 7 0 1 0 []; let s' := st 0 7 0 2 0 []
    (∀ r ∈ sources (.addi 2 1 5), s.read r = s'.read r) ∧ s.pc = s'.pc ∧ s.mem = s'.mem ∧ s.runState = s'.runState ∧
    (∃ t, exec (.addi 2 1 5) s = .next t ∧ t.runState ≠ .haltedAddress) ∧ (∃ t', exec (.addi 2 1 5) s' = .next t') ∧
    destination (.addi 2 1 5) = some 2 :=
  ⟨by decide, rfl, rfl, rfl, ⟨_, rfl, by decide⟩, ⟨_, rfl⟩, rfl⟩

theorem witness_StepRunsTheFetchedInstruction : let s := st 511 0 0 0 0 [(511, 0xC07E)]
    s.runState = .running ∧ s.pc.toNat < Config.memSize ∧
    decode (s.mem.get s.pc.toNat) = .instr (.beq 0 0 0xFFFE) := by decide

theorem witness_StepComputesTheSpecBlock : let s := st 0 1 2 3 4 [(0, 0x0C82)]
    s.runState = .running ∧ s.pc.toNat < Config.memSize := by decide

theorem witness_TerminalStatesHaveNoSuccessor :
    ({ State.reset with pc := 512, runState := .haltedNormal } : State).runState ≠ .running ∧
    ({ State.reset with runState := .haltedIllegal } : State).runState = .haltedIllegal ∧
    ({ State.reset with runState := .haltedAddress } : State).runState = .haltedAddress := by decide

theorem witness_FetchOutsideMemoryFaults :
    (st 512 0 0 0 0 []).runState = .running ∧ Config.memSize ≤ (st 512 0 0 0 0 []).pc.toNat := by decide

theorem witness_RunningStatesAlwaysStep : let s := st 511 0 0 0 0 [(511, 0xC07E)]
    s.Inv ∧ s.runState = .running := ⟨⟨by decide, by decide⟩, rfl⟩

theorem witness_StepKeepsTheInvariant : ∃ s t : State, s.Inv ∧ step s = .next t ∧ t ≠ s :=
  ⟨st 0 0 0 0 0 [(0, 0x2405)], st 1 5 0 0 0 [(0, 0x2405)], ⟨by decide, by decide⟩, rfl, by decide⟩

/-- Register 1 changes, to the value of an `addi`. -/
theorem witness_OnlyTheDestinationRegisterChanges : ∃ s t : State, step s = .next t ∧ t.read 1 ≠ s.read 1 :=
  ⟨st 0 0 0 0 0 [(0, 0x2405)], st 1 5 0 0 0 [(0, 0x2405)], rfl, by decide⟩

theorem witness_NoStepReachesHaltedIllegal : ∃ t, step (st 511 0 0 0 0 [(511, 0xFFFF)]) = .next t := ⟨_, rfl⟩

/-- Clause by clause: each loop state, and a step that raises at the first address out of range. -/
theorem witness_StatusOutputsNameTheOffendingAccess :
    ({ State.reset with runState := .haltedIllegal } : State).offendingWord = some 0 ∧
    ({ st 2 2 9 0 0 [(2, 0x8885)] with runState := .haltedAddress } : State).offendingAddress = some 517 ∧
    (st 2 2 9 0 0 [(2, 0x8885)]).offendingWord = none ∧
    ({ State.reset with pc := 512, runState := .haltedNormal } : State).offendingAddress = none ∧
    (∃ t, step (st 511 2 9 0 0 [(511, 0x8880)]) = .next t ∧ t.runState = .haltedAddress ∧
      t.offendingAddress = some 512) :=
  ⟨by decide, by decide, by decide, by decide, ⟨_, rfl, by decide, by decide⟩⟩

/-- A run of two steps that ends normally, and one still going at its first state. -/
theorem witness_FuelledRunEndsAtTheFirstTerminalState :
    (st 510 0 0 0 0 []).runFuel 2 = .ended 2 { st 512 0 0 0 0 [] with runState := .haltedNormal } ∧
    (st 510 0 0 0 0 []).runFuel 1 = .outOfFuel (st 511 0 0 0 0 []) := by decide

/-- A run that ends normally and one that ends in an address error, both from states of the invariant. -/
theorem witness_RunsEndInATerminalStateOrGoOn :
    ((st 511 0 0 0 0 []).Inv ∧ ∃ t, (st 511 0 0 0 0 []).runFuel 5 = .ended 1 t ∧ t.runState = .haltedNormal) ∧
    ((st 2 2 9 0 0 [(2, 0x8885)]).Inv ∧
      ∃ t, (st 2 2 9 0 0 [(2, 0x8885)]).runFuel 5 = .ended 1 t ∧ t.runState = .haltedAddress) :=
  ⟨⟨⟨by decide, by decide⟩, _, rfl, by decide⟩, ⟨⟨by decide, by decide⟩, _, rfl, by decide⟩⟩

/-- At the last address of the memory: `beq r1,r2,#-1` with one value in both registers, and `beq r0,r0,#-1`. -/
theorem witness_BranchToItselfNeverEnds :
    let s := st 511 9 9 0 0 [(511, 0xC57F)]
    let t := st 511 0 0 0 0 [(511, 0xC07F)]
    (s.runState = .running ∧ s.pc.toNat < Config.memSize ∧
      decode (s.mem.get s.pc.toNat) = .instr (.beq 1 2 0xFFFF) ∧ s.read 1 = s.read 2 ∧ s.read 2 = 9) ∧
    (t.runState = .running ∧ t.pc.toNat < Config.memSize ∧
      decode (t.mem.get t.pc.toNat) = .instr (.beq 0 0 0xFFFF)) := by decide

/-- Each of the three ends. -/
theorem witness_StepEndsOnlyAsListed :
    (∃ t, step (st 0 0 0 0 0 []) = .next t ∧ t.runState = .running) ∧
    (∃ t, step (st 511 0 0 0 0 []) = .next t ∧ t.runState = .haltedNormal) ∧
    (∃ t, step (st 0 2 9 0 0 [(0, 0x8885)]) = .next t ∧ t.runState = .haltedAddress) :=
  ⟨⟨_, rfl, by decide⟩, ⟨_, rfl, by decide⟩, ⟨_, rfl, by decide⟩⟩

theorem witness_OnlyAStoreChangesMemory : ∃ s t : State, step s = .next t ∧ t.mem.get 511 ≠ s.mem.get 511 :=
  ⟨st 0 2 0 0xBEEF 0 [(0, 0x8CFF)], _, rfl, by decide⟩

/-- A raise, a taken branch and a jump each leave a pc other than `pc + 1`. -/
theorem witness_OnlyControlTransfersRedirectThePc :
    (∃ t, step (st 0 2 9 0 0 [(0, 0x8885)]) = .next t ∧ t.pc ≠ 0 + 1) ∧
    (∃ t, step (st 2 7 7 0 0 [(2, 0xC503)]) = .next t ∧ t.pc ≠ 2 + 1) ∧
    (∃ t, step (st 3 0 6 0 0 [(3, 0xFD00)]) = .next t ∧ t.pc ≠ 3 + 1) :=
  ⟨⟨_, rfl, by decide⟩, ⟨_, rfl, by decide⟩, ⟨_, rfl, by decide⟩⟩

/-- P4, the step at address 1. -/
theorem witness_StoreIsSeenByTheNextFetch : let s := st 1 0x2807 0 0 0 [(1, 0x8402), (2, 0x2801)]
    ∃ t, step s = .next t ∧ decode (s.mem.get s.pc.toNat) = .instr (.sw 1 0 2) ∧
      s.operandAddress 0 2 = s.pc + 1 ∧ t.runState = .running ∧ decode (s.read 1) = .instr (.addi 2 0 7) :=
  ⟨_, rfl, by decide, by decide, by decide, by decide⟩

theorem witness_ImageBytesBecomeMemoryWords :
    (List.replicate 1024 (0x11 : Byte)).length ≤ 1024 ∧ 1024 < (List.replicate 1025 (0x11 : Byte)).length := by
  simp only [List.length_replicate]; omega

end Sys2Proof.Tests
end

