-- ==== Sys2Proof/Proofs/ScopePrimitives.lean ====
section
/-! PROOFS. The two extensions of spec/00_scope.md rule R8 and the register primitives of R9. -/

namespace Sys2Proof

theorem sext16_toNat (v : BitVec 7) :
    (sext16 v).toNat = if v.getLsbD 6 = false then v.toNat else v.toNat + 0xFF80 := by
  have hmsb : v.msb = v.getLsbD 6 := BitVec.msb_eq_getLsbD_last v
  have hwidth : v.toNat % 2 ^ 16 = v.toNat := by omega
  rw [sext16, BitVec.toNat_signExtend, BitVec.toNat_setWidth, hmsb, hwidth]
  cases v.getLsbD 6 <;> rfl

/-- Sign extension keeps the signed number: the 7-bit field and the 16-bit pattern denote the same one. -/
theorem sext16_toInt (v : BitVec 7) : (sext16 v).toInt = v.toInt :=
  BitVec.toInt_signExtend_of_le (by decide)

theorem sext16_toInt_mem (v : BitVec 7) : -64 ≤ (sext16 v).toInt ∧ (sext16 v).toInt ≤ 63 := by
  have hlo : -64 ≤ v.toInt := BitVec.le_toInt v
  have hhi : v.toInt < 64 := BitVec.toInt_lt
  rw [sext16_toInt]
  exact ⟨hlo, Int.le_of_lt_add_one hhi⟩

/-- Adding a pattern is adding the signed number it denotes, modulo `2^16` (R7, R8). -/
theorem add_eq_ofInt_toNat_add_toInt (a b : Word) : a + b = BitVec.ofInt 16 ((a.toNat : Int) + b.toInt) := by
  rw [BitVec.ofInt_add, BitVec.ofInt_natCast, BitVec.ofNat_toNat, BitVec.setWidth_eq, BitVec.ofInt_toInt]

theorem zext16_toNat (v : BitVec 10) : (zext16 v).toNat = v.toNat :=
  BitVec.toNat_setWidth_of_le (by decide)

/-- Settles O7: the two-case value is the library's sign extension read at bit 6, and the sum law holds of every pattern. -/
theorem extensionsFollowTheSignBit : Obligations.ExtensionsFollowTheSignBit :=
  ⟨fun v => ⟨sext16_toNat v, sext16_toInt_mem v⟩, fun a v => add_eq_ofInt_toNat_add_toInt a (sext16 v),
    zext16_toNat, by decide, by decide⟩

end Sys2Proof

namespace Sys2Proof.Machine

/-- What any register reads after a write to any register: the three laws of the register file in one (R9, R21). -/
theorem State.read_write (s : State) (i j : Reg) (v : Word) :
    (s.write i v).read j = if j = 0 then 0 else if j = i then v else s.read j := by
  by_cases hzero : j = 0
  · rw [if_pos hzero, hzero]
    exact State.read_zero _
  rw [if_neg hzero]
  by_cases hji : j = i
  · subst hji
    rw [if_pos rfl, State.read_write_same s hzero]
  · rw [if_neg hji, State.read_write_ne s hji]

/-- Settles O10, by the laws of the register file. -/
theorem registerWriteThenRead : Obligations.RegisterWriteThenRead :=
  fun s i j v => ⟨State.read_write s i j v, State.write_zero s v⟩

end Sys2Proof.Machine
end

