-- ==== Sys2Proof/Proofs/Encoding.lean ====
section
/-! PROOFS. The decoder (spec/30_encoding.md rules R66 to R69): which instruction the opcode field selects, what numbers
the six fields are, and which bits of a word each field depends on. -/

namespace Sys2Proof

open Sys2Proof.Claims Sys2Proof.Laws.OpcodeMatch

/-! ### The dispatch, one equation per row of R66 -/

section Dispatch

variable {f : Fields}

theorem dispatchOpcode_add (h : f.opcode = 0) : dispatchOpcode f = .instr (.add f.regA f.regB f.regC) := by
  simp [dispatchOpcode, h]

theorem dispatchOpcode_addi (h : f.opcode = 1) : dispatchOpcode f = .instr (.addi f.regA f.regB f.imm7) := by
  simp [dispatchOpcode, h]

theorem dispatchOpcode_nand (h : f.opcode = 2) : dispatchOpcode f = .instr (.nand f.regA f.regB f.regC) := by
  simp [dispatchOpcode, h]

theorem dispatchOpcode_lui (h : f.opcode = 3) : dispatchOpcode f = .instr (.lui f.regA f.imm10) := by
  simp [dispatchOpcode, h]

theorem dispatchOpcode_sw (h : f.opcode = 4) : dispatchOpcode f = .instr (.sw f.regA f.regB f.imm7) := by
  simp [dispatchOpcode, h]

theorem dispatchOpcode_lw (h : f.opcode = 5) : dispatchOpcode f = .instr (.lw f.regA f.regB f.imm7) := by
  simp [dispatchOpcode, h]

theorem dispatchOpcode_beq (h : f.opcode = 6) : dispatchOpcode f = .instr (.beq f.regA f.regB f.imm7) := by
  simp [dispatchOpcode, h]

theorem dispatchOpcode_jalr (h : f.opcode = 7) : dispatchOpcode f = .instr (.jalr f.regA f.regB) := by
  simp [dispatchOpcode, h]

end Dispatch

/-- All eight codes of the opcode field (R68). -/
theorem opcode_cases (p : BitVec 3) : p = 0 ∨ p = 1 ∨ p = 2 ∨ p = 3 ∨ p = 4 ∨ p = 5 ∨ p = 6 ∨ p = 7 := by
  revert p; decide

/-- The dispatcher answers one of the eight instructions, its operands taken from the fields (R66, R67). -/
theorem dispatchOpcode_cases (f : Fields) :
    dispatchOpcode f = .instr (.add f.regA f.regB f.regC) ∨ dispatchOpcode f = .instr (.addi f.regA f.regB f.imm7) ∨
      dispatchOpcode f = .instr (.nand f.regA f.regB f.regC) ∨ dispatchOpcode f = .instr (.lui f.regA f.imm10) ∨
      dispatchOpcode f = .instr (.sw f.regA f.regB f.imm7) ∨ dispatchOpcode f = .instr (.lw f.regA f.regB f.imm7) ∨
      dispatchOpcode f = .instr (.beq f.regA f.regB f.imm7) ∨ dispatchOpcode f = .instr (.jalr f.regA f.regB) :=
  (opcode_cases f.opcode).imp dispatchOpcode_add <| .imp dispatchOpcode_addi <| .imp dispatchOpcode_nand <|
    .imp dispatchOpcode_lui <| .imp dispatchOpcode_sw <| .imp dispatchOpcode_lw <|
    .imp dispatchOpcode_beq dispatchOpcode_jalr

/-- Settles O4: each of the eight answers of the dispatcher is an instruction. -/
theorem everyWordIsAnInstruction : Obligations.EveryWordIsAnInstruction := by
  intro w
  obtain h | h | h | h | h | h | h | h := dispatchOpcode_cases (decodeFields w) <;> exact ⟨_, h⟩

/-! ### The mask of R66 -/

/-- The mask `0xE000` leaves the opcode field alone. -/
theorem and_opcodeMask (w : Word) : w &&& 0xE000 = (decodeFields w).opcode ++ 0#13 := by
  obtain ⟨p, a, b, v, rfl⟩ := exists_formatI w
  rw [decodeFields_formatI, append_formatI]
  exact mask_append p (a ++ b ++ v)

theorem opcode_eq_of_and_opcodeMask {w : Word} {p : BitVec 3} (h : w &&& 0xE000 = p ++ 0#13) :
    (decodeFields w).opcode = p := by
  rw [and_opcodeMask] at h
  exact (BitVec.append_left_inj _).1 h

/-- The dispatcher answers an instruction only under the instruction's own opcode. -/
theorem opcode_append_eq_matchWord {f : Fields} {i : Instr} (h : dispatchOpcode f = .instr i) :
    f.opcode ++ 0#13 = matchWord i := by
  obtain ⟨p, a, b, c, imm7, imm10⟩ := f
  change p ++ 0#13 = matchWord i
  obtain rfl | rfl | rfl | rfl | rfl | rfl | rfl | rfl := opcode_cases p <;> cases h <;> rfl

/-- R66, one direction for all eight rows at once: a word that is an instruction carries its match value. -/
theorem and_opcodeMask_of_decode {w : Word} {i : Instr} (h : decode w = .instr i) : w &&& 0xE000 = matchWord i :=
  (and_opcodeMask w).trans (opcode_append_eq_matchWord h)

/-- Settles O5: a decoded word carries its instruction's match value, and a match value fixes the opcode, hence the
dispatcher's row. -/
theorem opcodeFieldAloneSelectsTheInstruction : Obligations.OpcodeFieldAloneSelectsTheInstruction := fun _ =>
  ⟨⟨fun ⟨_, _, _, h⟩ => and_opcodeMask_of_decode h,
      fun h => ⟨_, _, _, dispatchOpcode_add (opcode_eq_of_and_opcodeMask (p := 0) h)⟩⟩,
    ⟨fun ⟨_, _, _, h⟩ => and_opcodeMask_of_decode h,
      fun h => ⟨_, _, _, dispatchOpcode_addi (opcode_eq_of_and_opcodeMask (p := 1) h)⟩⟩,
    ⟨fun ⟨_, _, _, h⟩ => and_opcodeMask_of_decode h,
      fun h => ⟨_, _, _, dispatchOpcode_nand (opcode_eq_of_and_opcodeMask (p := 2) h)⟩⟩,
    ⟨fun ⟨_, _, h⟩ => and_opcodeMask_of_decode h,
      fun h => ⟨_, _, dispatchOpcode_lui (opcode_eq_of_and_opcodeMask (p := 3) h)⟩⟩,
    ⟨fun ⟨_, _, _, h⟩ => and_opcodeMask_of_decode h,
      fun h => ⟨_, _, _, dispatchOpcode_sw (opcode_eq_of_and_opcodeMask (p := 4) h)⟩⟩,
    ⟨fun ⟨_, _, _, h⟩ => and_opcodeMask_of_decode h,
      fun h => ⟨_, _, _, dispatchOpcode_lw (opcode_eq_of_and_opcodeMask (p := 5) h)⟩⟩,
    ⟨fun ⟨_, _, _, h⟩ => and_opcodeMask_of_decode h,
      fun h => ⟨_, _, _, dispatchOpcode_beq (opcode_eq_of_and_opcodeMask (p := 6) h)⟩⟩,
    ⟨fun ⟨_, _, h⟩ => and_opcodeMask_of_decode h,
      fun h => ⟨_, _, dispatchOpcode_jalr (opcode_eq_of_and_opcodeMask (p := 7) h)⟩⟩⟩

/-! ### The six fields as numbers -/

/-- A bit field of a word is the slice of R6. -/
theorem extractLsb'_toNat_eq_slice (w : Word) (lo len : Nat) :
    (w.extractLsb' lo (len + 1)).toNat = slice w.toNat (lo + len) lo := by
  rw [BitVec.extractLsb'_toNat, Nat.shiftRight_eq_div_pow, slice, Nat.add_sub_cancel_left]

/-- `sext_16` as the spec writes it, on numbers (R8). -/
theorem sext16_eq_pattern (v : BitVec 7) : sext16 v = pattern (sextNat v.toNat) := by
  have hv : v.toNat < 128 := v.isLt
  have hbit : v.getLsbD 6 = decide (v.toNat / 64 % 2 = 1) := Nat.testBit_eq_decide_div_mod_eq
  apply BitVec.eq_of_toNat_eq
  rw [sext16_toNat, hbit, pattern, sextNat, BitVec.toNat_ofNat]
  simp only [decide_eq_false_iff_not, Config.xlen]
  split <;> split <;> omega

/-- Settles O6: each field is a slice of the word, `imm7` the extended one, and the dispatcher hands the fields on. -/
theorem decoderExtractsTheSixFields : Obligations.DecoderExtractsTheSixFields := by
  intro w
  have himm7 : (decodeFields w).imm7 = pattern (sextNat (slice w.toNat 6 0)) := by
    rw [← extractLsb'_toNat_eq_slice w 0 6, ← sext16_eq_pattern]
    rfl
  have himm10 : (decodeFields w).imm10.toNat = slice w.toNat 9 0 :=
    (zext16_toNat _).trans (extractLsb'_toNat_eq_slice w 0 9)
  exact ⟨extractLsb'_toNat_eq_slice w 13 2, extractLsb'_toNat_eq_slice w 10 2, extractLsb'_toNat_eq_slice w 7 2,
    extractLsb'_toNat_eq_slice w 0 2, himm7, himm10, dispatchOpcode_cases _⟩

/-! ### The ignored bits -/

/-- A field inside a mask does not see the bits outside it. -/
theorem extractLsb'_eq_of_and_eq {w w' m : Word} {start len : Nat} (h : w &&& m = w' &&& m)
    (hm : m.extractLsb' start len = BitVec.allOnes len) : w.extractLsb' start len = w'.extractLsb' start len := by
  have hand := congrArg (BitVec.extractLsb' start len) h
  rwa [BitVec.extractLsb'_and, BitVec.extractLsb'_and, hm, BitVec.and_allOnes, BitVec.and_allOnes] at hand

/-- Format R is decoded from bits 15:7 and 2:0. -/
theorem decode_eq_of_and_eq_formatR {w w' : Word} (hop : (decodeFields w).opcode = 0 ∨ (decodeFields w).opcode = 2)
    (h : w &&& 0xFF87 = w' &&& 0xFF87) : decode w = decode w' := by
  have hp : (decodeFields w).opcode = (decodeFields w').opcode := extractLsb'_eq_of_and_eq h (by decide)
  have ha : (decodeFields w).regA = (decodeFields w').regA := extractLsb'_eq_of_and_eq h (by decide)
  have hb : (decodeFields w).regB = (decodeFields w').regB := extractLsb'_eq_of_and_eq h (by decide)
  have hc : (decodeFields w).regC = (decodeFields w').regC := extractLsb'_eq_of_and_eq h (by decide)
  obtain hop | hop := hop
  · rw [decode, decode, dispatchOpcode_add hop, dispatchOpcode_add (hp.symm.trans hop), ha, hb, hc]
  · rw [decode, decode, dispatchOpcode_nand hop, dispatchOpcode_nand (hp.symm.trans hop), ha, hb, hc]

/-- Format J is decoded from bits 15:7. -/
theorem decode_eq_of_and_eq_formatJ {w w' : Word} (hop : (decodeFields w).opcode = 7)
    (h : w &&& 0xFF80 = w' &&& 0xFF80) : decode w = decode w' := by
  have hp : (decodeFields w).opcode = (decodeFields w').opcode := extractLsb'_eq_of_and_eq h (by decide)
  have ha : (decodeFields w).regA = (decodeFields w').regA := extractLsb'_eq_of_and_eq h (by decide)
  have hb : (decodeFields w).regB = (decodeFields w').regB := extractLsb'_eq_of_and_eq h (by decide)
  rw [decode, decode, dispatchOpcode_jalr hop, dispatchOpcode_jalr (hp.symm.trans hop), ha, hb]

/-- Settles O8: the match value fixes the format, and the format's fields lie outside the ignored bits. -/
theorem ignoredBitsHaveNoEffect : Obligations.IgnoredBitsHaveNoEffect := fun _ _ =>
  ⟨fun hm => decode_eq_of_and_eq_formatR
      (hm.imp (opcode_eq_of_and_opcodeMask (p := 0)) (opcode_eq_of_and_opcodeMask (p := 2))),
    fun hm => decode_eq_of_and_eq_formatJ (opcode_eq_of_and_opcodeMask (p := 7) hm)⟩

end Sys2Proof
end

