-- ==== Sys2Proof/Proofs/ArithLogic.lean ====
section
/-! PROOFS. The register-writing instructions that cannot raise (spec/41_arith_logic.md rules R100 to R103): what a
write-back leaves of the state, and the value each of the four writes as the number the spec gives. -/

namespace Sys2Proof

open Sys2Proof.Machine Sys2Proof.Claims

/-! ### The end of a register-writing instruction -/

/-- Retiring makes the termination test (R87), whatever the instruction did to registers and memory before it. -/
theorem haltTest_retire {s u : State} (h : u.runState = s.runState) (target : Word) : HaltTest s (u.retire target) := by
  simp only [HaltTest, State.retire_runState, State.retire_pc, inRange_iff, h]

/-- An instruction that ends in a write-back writes its destination and nothing else (R9, R26, R87). -/
theorem writesOneRegister_of_exec_eq_writeback {i : Instr} {s : State} {a : Reg} {v : Word}
    (h : exec i s = .next (s.writeback a v)) : WritesOneRegister i s a v (s.pc + 1) := by
  refine ⟨s.writeback a v, h, ?_, fun r hr => ?_, fun x => ?_, State.writeback_pc s a v, ?_⟩
  · rw [State.writeback_read, State.read_write, if_pos rfl]
  · rw [State.writeback_read, State.read_write_ne s hr]
  · rw [State.writeback_mem]
  · exact haltTest_retire (State.write_runState s a v) (s.pc + 1)

/-! ### Patterns of numbers (R7) -/

theorem pattern_eq_ofNat (n : Nat) : pattern n = BitVec.ofNat 16 n :=
  BitVec.eq_of_toNat_eq (by simp [pattern])

theorem pattern_toNat (w : Word) : pattern w.toNat = w := by
  rw [pattern_eq_ofNat, BitVec.ofNat_toNat, BitVec.setWidth_eq]

/-- The sum of two patterns wraps at 16 bits (R7). -/
theorem pattern_add (m n : Nat) : pattern (m + n) = pattern m + pattern n := by
  simp only [pattern_eq_ofNat, BitVec.ofNat_add]

/-- The complement of all 16 bits, as a subtraction that never borrows. -/
theorem not_eq_pattern (w : Word) : ~~~w = pattern (65535 - w.toNat) := by
  have hw : w.toNat < 65536 := w.isLt
  apply BitVec.eq_of_toNat_eq
  rw [BitVec.toNat_not, pattern, BitVec.toNat_ofNat]
  simp only [Config.xlen]
  omega

/-! ### The value each instruction writes -/

theorem add_eq_pattern (x y : Word) : x + y = pattern (x.toNat + y.toNat) := by
  rw [pattern_add, pattern_toNat, pattern_toNat]

theorem add_sext16_eq_pattern (x : Word) (v : BitVec 7) : x + sext16 v = pattern (x.toNat + sextNat v.toNat) := by
  rw [pattern_add, pattern_toNat, sext16_eq_pattern]

theorem nand_eq_pattern (x y : Word) : ~~~(x &&& y) = pattern (65535 - (x.toNat &&& y.toNat)) := by
  rw [not_eq_pattern, BitVec.toNat_and]

theorem getLsbD_nand_eq_false_iff {k : Nat} (hk : k < 16) (x y : Word) :
    (~~~(x &&& y)).getLsbD k = false ↔ x.getLsbD k = true ∧ y.getLsbD k = true := by
  rw [BitVec.getLsbD_not, BitVec.getLsbD_and]
  simp [hk]

/-- The ten bits of the immediate fill bits 15:6, so the shift loses none of them. -/
theorem append_zero_eq_pattern (v : BitVec 10) : v ++ 0#6 = pattern (v.toNat * 2 ^ 6) := by
  have hv : v.toNat < 1024 := v.isLt
  apply BitVec.eq_of_toNat_eq
  rw [toNat_append_eq, pattern, BitVec.toNat_ofNat, BitVec.toNat_ofNat]
  omega

theorem upperImmediate_zext16 (v : BitVec 10) : upperImmediate (zext16 v) = v ++ 0#6 := by
  apply BitVec.eq_of_toNat_eq
  rw [upperImmediate, BitVec.toNat_shiftLeft, zext16_toNat, append_zero_eq_pattern, pattern, BitVec.toNat_ofNat,
    Nat.shiftLeft_eq]
  exact (Nat.mod_mod _ _).symm

/-! ### The four instructions -/

/-- Settles O14: the word is format R under opcode 0, and the write-back stores the wrapped sum. -/
theorem addStoresTheSum : Obligations.AddStoresTheSum := fun a b c u =>
  ⟨(congrArg dispatchOpcode (decodeFields_formatR 0 a b u c)).trans (dispatchOpcode_add rfl), fun s => by
    rw [← add_eq_pattern]
    exact writesOneRegister_of_exec_eq_writeback rfl⟩

/-- Settles O15: the word is format I under opcode 1, and the write-back stores the wrapped sum with the extended
immediate. -/
theorem addiAddsTheSignedImmediate : Obligations.AddiAddsTheSignedImmediate := fun a b imm7 =>
  ⟨(congrArg dispatchOpcode (decodeFields_formatI 1 a b imm7)).trans (dispatchOpcode_addi rfl), fun s => by
    rw [← add_sext16_eq_pattern]
    exact writesOneRegister_of_exec_eq_writeback rfl⟩

/-- Settles O16: the word is format R under opcode 2, and the subtraction from 65535 is the complement, read bit by
bit. -/
theorem nandIsBitwiseOnAllSixteenBits : Obligations.NandIsBitwiseOnAllSixteenBits := fun a b c u =>
  ⟨(congrArg dispatchOpcode (decodeFields_formatR 2 a b u c)).trans (dispatchOpcode_nand rfl), fun s => by
    rw [← nand_eq_pattern]
    exact ⟨writesOneRegister_of_exec_eq_writeback rfl,
      fun _ hk => getLsbD_nand_eq_false_iff hk (s.read b) (s.read c)⟩⟩

/-- Settles O17: the word is format U under opcode 3, and the shifted immediate is the immediate in front of six zero
bits. -/
theorem luiLoadsTheUpperTenBits : Obligations.LuiLoadsTheUpperTenBits := fun a imm10 =>
  ⟨(congrArg dispatchOpcode (decodeFields_formatU 3 a imm10)).trans (dispatchOpcode_lui rfl), fun s => by
    rw [← upperImmediate_zext16]
    exact ⟨writesOneRegister_of_exec_eq_writeback rfl,
      (upperImmediate_zext16 imm10).trans (append_zero_eq_pattern imm10)⟩⟩

end Sys2Proof
end

