-- ==== Sys2Proof/Proofs/ControlTransfer.lean ====
section
/-! PROOFS. The two control transfers (spec/43_control_transfer.md rules R140 and R142): where each of them sends the pc,
and that a transfer leaves the rest of the state as the instruction's register write left it. -/

namespace Sys2Proof

open Sys2Proof.Machine Sys2Proof.Claims

/-! ### The pc of each transfer -/

/-- The pc of the next word, and the link of `jalr` (R7). -/
theorem add_one_eq_pattern (pc : Word) : pc + 1 = pattern (pc.toNat + 1) := add_eq_pattern pc 1

/-- The target of a taken `beq` (R140): only the final sum is reduced in the spec, the model wraps after each addition. -/
theorem add_one_add_sext16_eq_pattern (pc : Word) (v : BitVec 7) :
    pc + 1 + sext16 v = pattern (pc.toNat + 1 + sextNat v.toNat) := by
  rw [pattern_add, ← add_one_eq_pattern, ← sext16_eq_pattern]

theorem regsEqual_iff (s : State) (a b : Reg) : s.regsEqual a b = true ↔ s.read a = s.read b := beq_iff_eq

/-- What `jalr` reads after its link write (R142): the link where the write stored one in the register read, else the old
value, which for register 0 is 0 both before and after. -/
theorem read_write_eq_ite (s : State) (a b : Reg) (v : Word) :
    (s.write a v).read b = if a = b ∧ a ≠ 0 then v else s.read b := by
  by_cases h : a = b ∧ a ≠ 0
  · obtain ⟨rfl, ha⟩ := h
    rw [if_pos ⟨rfl, ha⟩, State.read_write_same s ha]
  rw [if_neg h]
  by_cases hab : b = a
  · have ha : a = 0 := not_not.1 fun ha => h ⟨hab.symm, ha⟩
    rw [ha]
    exact congrArg (State.read · b) (State.write_zero s v)
  · exact State.read_write_ne s hab v

/-! ### The frame of a transfer -/

/-- An instruction that writes one register and then sends the pc anywhere changes nothing else (R9, R26, R87). -/
theorem writesOneRegister_of_exec_eq_retire {i : Instr} {s : State} {a : Reg} {v target : Word}
    (h : exec i s = .next ((s.write a v).retire target)) : WritesOneRegister i s a v target := by
  refine ⟨(s.write a v).retire target, h, ?_, fun r hr => ?_, fun x => ?_, State.retire_pc _ target, ?_⟩
  · rw [State.retire_read, State.read_write, if_pos rfl]
  · rw [State.retire_read, State.read_write_ne s hr]
  · rw [State.retire_mem, State.write_mem]
  · exact haltTest_retire (State.write_runState s a v) target

/-! ### The two instructions -/

/-- Settles O21: the word is format I under opcode 6, and the meaning is a bare retirement at one of the two targets. -/
theorem beqBranchesOnEquality : Obligations.BeqBranchesOnEquality := fun a b imm7 =>
  ⟨(congrArg dispatchOpcode (decodeFields_formatI 6 a b imm7)).trans (dispatchOpcode_beq rfl), fun s => by
    refine ⟨_, rfl, State.retire_read s _, fun x => ?_, haltTest_retire rfl _, ?_⟩
    · rw [State.retire_mem]
    · rw [State.retire_pc, ← add_one_eq_pattern, ← add_one_add_sext16_eq_pattern]
      simp only [regsEqual_iff]⟩

/-- Settles O22: the word is format J under opcode 7, and the target is read from the state the link was written to. -/
theorem jalrLinksThenJumps : Obligations.JalrLinksThenJumps := fun a b u =>
  ⟨(congrArg dispatchOpcode (decodeFields_formatI 7 a b u)).trans (dispatchOpcode_jalr rfl), fun s => by
    rw [← add_one_eq_pattern, ← read_write_eq_ite]
    exact writesOneRegister_of_exec_eq_retire rfl⟩

end Sys2Proof
end

