-- ==== Sys2Proof/Proofs/RoundTrip.lean ====
section
/-! PROOFS. Decoding and encoding undo each other (spec/30_encoding.md rules R61 to R65 and R74): an immediate its field
can hold comes back from its field, and the fields of a word put together again are the word without its ignored bits. -/

namespace Sys2Proof

open Sys2Proof.Claims

/-! ### Immediates and their fields (R8, R62, R63) -/

/-- `sext_16` as the spec writes it needs no reduction. -/
theorem sext16_toNat_eq_sextNat (v : BitVec 7) : (sext16 v).toNat = sextNat v.toNat := by
  have hv : v.toNat < 128 := v.isLt
  rw [sext16_eq_pattern, pattern, BitVec.toNat_ofNat, sextNat, Config.xlen]
  split <;> omega

theorem setWidth_sext16 (v : BitVec 7) : (sext16 v).setWidth 7 = v := by
  have hv : v.toNat < 128 := v.isLt
  apply BitVec.eq_of_toNat_eq
  rw [BitVec.toNat_setWidth, sext16_toNat_eq_sextNat, sextNat]
  split <;> omega

theorem isImm7_sext16 (v : BitVec 7) : isImm7 (sext16 v) = true := by
  have hv : v.toNat < 128 := v.isLt
  simp only [isImm7, sext16_toNat_eq_sextNat, sextNat, Bool.or_eq_true, decide_eq_true_eq]
  split <;> omega

/-- A pattern of `-64 .. 63` is the extension of its low seven bits. -/
theorem sext16_setWidth {v : Word} (h : isImm7 v = true) : sext16 (v.setWidth 7) = v := by
  have hv : v.toNat < 65536 := v.isLt
  simp only [isImm7, Bool.or_eq_true, decide_eq_true_eq] at h
  apply BitVec.eq_of_toNat_eq
  rw [sext16_toNat_eq_sextNat, BitVec.toNat_setWidth, sextNat]
  split <;> omega

theorem setWidth_zext16 (v : BitVec 10) : (zext16 v).setWidth 10 = v :=
  BitVec.setWidth_setWidth_of_le v (by decide)

theorem isImm10_zext16 (v : BitVec 10) : isImm10 (zext16 v) = true := by
  rw [isImm10, zext16_toNat, decide_eq_true_eq]
  exact v.isLt

/-- A number of `0 .. 1023` is the extension of its low ten bits. -/
theorem zext16_setWidth {v : Word} (h : isImm10 v = true) : zext16 (v.setWidth 10) = v := by
  apply BitVec.eq_of_toNat_eq
  rw [zext16_toNat, BitVec.toNat_setWidth, Nat.mod_eq_of_lt (by simpa [isImm10] using h)]

/-! ### From the instruction to the word and back -/

/-- Settles O2: the decoder finds each field where the layout of the format put it, and an admitted immediate survives
the cut to its field. -/
theorem decodeOfEncodeReturnsTheInstruction : Obligations.DecodeOfEncodeReturnsTheInstruction := by
  intro i unused hwf
  cases i with
  | add a b c => exact (congrArg dispatchOpcode (decodeFields_formatR 0 a b _ c)).trans (dispatchOpcode_add rfl)
  | addi a b imm =>
    refine (congrArg dispatchOpcode (decodeFields_formatI 1 a b _)).trans ((dispatchOpcode_addi rfl).trans ?_)
    rw [sext16_setWidth hwf]
  | nand a b c => exact (congrArg dispatchOpcode (decodeFields_formatR 2 a b _ c)).trans (dispatchOpcode_nand rfl)
  | lui a imm =>
    refine (congrArg dispatchOpcode (decodeFields_formatU 3 a _)).trans ((dispatchOpcode_lui rfl).trans ?_)
    rw [zext16_setWidth hwf]
  | sw a b imm =>
    refine (congrArg dispatchOpcode (decodeFields_formatI 4 a b _)).trans ((dispatchOpcode_sw rfl).trans ?_)
    rw [sext16_setWidth hwf]
  | lw a b imm =>
    refine (congrArg dispatchOpcode (decodeFields_formatI 5 a b _)).trans ((dispatchOpcode_lw rfl).trans ?_)
    rw [sext16_setWidth hwf]
  | beq a b imm =>
    refine (congrArg dispatchOpcode (decodeFields_formatI 6 a b _)).trans ((dispatchOpcode_beq rfl).trans ?_)
    rw [sext16_setWidth hwf]
  | jalr a b => exact (congrArg dispatchOpcode (decodeFields_formatI 7 a b unused)).trans (dispatchOpcode_jalr rfl)

/-! ### From the word to its fields and back -/

theorem and_formatR (p a b : BitVec 3) (u : BitVec 4) (c : BitVec 3) :
    (p ++ a ++ b ++ u ++ c) &&& 0xFF87#16 = p ++ a ++ b ++ 0#4 ++ c := by
  rw [show (0xFF87#16 : BitVec (3 + 3 + 3 + 4 + 3)) = BitVec.allOnes 3 ++ BitVec.allOnes 3 ++ BitVec.allOnes 3 ++ 0#4 ++
    BitVec.allOnes 3 from rfl, BitVec.and_append, BitVec.and_append, BitVec.and_append, BitVec.and_append]
  simp only [BitVec.and_zero, BitVec.and_allOnes]

theorem and_formatJ (p a b : BitVec 3) (v : BitVec 7) : (p ++ a ++ b ++ v) &&& 0xFF80#16 = p ++ a ++ b ++ 0#7 := by
  rw [show (0xFF80#16 : BitVec (3 + 3 + 3 + 7)) = BitVec.allOnes 3 ++ BitVec.allOnes 3 ++ BitVec.allOnes 3 ++ 0#7 from rfl,
    BitVec.and_append, BitVec.and_append, BitVec.and_append]
  simp only [BitVec.and_zero, BitVec.and_allOnes]

section Fields

variable {w : Word} {p : BitVec 3} (hp : (decodeFields w).opcode = p)
include hp

theorem append_fields_formatR :
    p ++ (decodeFields w).regA ++ (decodeFields w).regB ++ 0#4 ++ (decodeFields w).regC = w &&& 0xFF87 := by
  subst hp
  obtain ⟨q, a, b, u, c, rfl⟩ := exists_formatR w
  rw [decodeFields_formatR]
  exact (and_formatR q a b u c).symm

theorem append_fields_formatJ :
    p ++ (decodeFields w).regA ++ (decodeFields w).regB ++ 0#7 = w &&& 0xFF80 := by
  subst hp
  obtain ⟨q, a, b, v, rfl⟩ := exists_formatI w
  rw [decodeFields_formatI]
  exact (and_formatJ q a b v).symm

theorem append_fields_formatI :
    p ++ (decodeFields w).regA ++ (decodeFields w).regB ++ (decodeFields w).imm7.setWidth 7 = w &&& 0xFFFF := by
  subst hp
  obtain ⟨q, a, b, v, rfl⟩ := exists_formatI w
  rw [decodeFields_formatI, setWidth_sext16]
  exact BitVec.and_allOnes.symm

theorem append_fields_formatU :
    p ++ (decodeFields w).regA ++ (decodeFields w).imm10.setWidth 10 = w &&& 0xFFFF := by
  subst hp
  obtain ⟨q, a, v, rfl⟩ := exists_formatU w
  rw [decodeFields_formatU, setWidth_zext16]
  exact BitVec.and_allOnes.symm

end Fields

theorem decodeFields_imm7_isImm7 (w : Word) : isImm7 (decodeFields w).imm7 = true := isImm7_sext16 _

theorem decodeFields_imm10_isImm10 (w : Word) : isImm10 (decodeFields w).imm10 = true := isImm10_zext16 _

/-- Settles O3: the opcode selects the format, and the encoder puts that format's fields together again. -/
theorem encodeOfDecodeClearsIgnoredBits : Obligations.EncodeOfDecodeClearsIgnoredBits := by
  intro w i h
  obtain hp | hp | hp | hp | hp | hp | hp | hp := opcode_cases (decodeFields w).opcode
  · cases h.symm.trans (dispatchOpcode_add hp)
    exact ⟨rfl, append_fields_formatR hp⟩
  · cases h.symm.trans (dispatchOpcode_addi hp)
    exact ⟨decodeFields_imm7_isImm7 w, append_fields_formatI hp⟩
  · cases h.symm.trans (dispatchOpcode_nand hp)
    exact ⟨rfl, append_fields_formatR hp⟩
  · cases h.symm.trans (dispatchOpcode_lui hp)
    exact ⟨decodeFields_imm10_isImm10 w, append_fields_formatU hp⟩
  · cases h.symm.trans (dispatchOpcode_sw hp)
    exact ⟨decodeFields_imm7_isImm7 w, append_fields_formatI hp⟩
  · cases h.symm.trans (dispatchOpcode_lw hp)
    exact ⟨decodeFields_imm7_isImm7 w, append_fields_formatI hp⟩
  · cases h.symm.trans (dispatchOpcode_beq hp)
    exact ⟨decodeFields_imm7_isImm7 w, append_fields_formatI hp⟩
  · cases h.symm.trans (dispatchOpcode_jalr hp)
    exact ⟨rfl, append_fields_formatJ hp⟩

/-! ### The words of R74 with shifts and ors -/

section Shifts

variable (p : BitVec 3) (a b c : Reg)

theorem toNat_formatR (u : BitVec 4) : (p ++ a ++ b ++ u ++ c).toNat =
    p.toNat <<< 13 ||| a.toNat <<< 10 ||| b.toNat <<< 7 ||| u.toNat <<< 3 ||| c.toNat := by
  simp only [BitVec.toNat_append, Nat.shiftLeft_or_distrib, ← Nat.shiftLeft_add, Config.selectorBits]

theorem toNat_formatI (v : BitVec 7) : (p ++ a ++ b ++ v).toNat =
    p.toNat <<< 13 ||| a.toNat <<< 10 ||| b.toNat <<< 7 ||| v.toNat := by
  simp only [BitVec.toNat_append, Nat.shiftLeft_or_distrib, ← Nat.shiftLeft_add, Config.selectorBits]

theorem toNat_formatU (v : BitVec 10) : (p ++ a ++ v).toNat = p.toNat <<< 13 ||| a.toNat <<< 10 ||| v.toNat := by
  simp only [BitVec.toNat_append, Nat.shiftLeft_or_distrib, ← Nat.shiftLeft_add, Config.selectorBits]

end Shifts

/-- Settles O9: concatenation is shift and or, and a cut to `n` bits is a remainder modulo `2^n`. -/
theorem encodedWordsAreShiftedFields : Obligations.EncodedWordsAreShiftedFields := by
  intro a b c imm u
  have h4 : (u.setWidth 4).toNat = u.toNat % 16 := BitVec.toNat_setWidth 4 u
  have h7 : (imm.setWidth 7).toNat = imm.toNat % 128 := BitVec.toNat_setWidth 7 imm
  have h10 : (imm.setWidth 10).toNat = imm.toNat % 1024 := BitVec.toNat_setWidth 10 imm
  rw [← h4, ← h7, ← h10]
  exact ⟨toNat_formatR 0 a b c _, toNat_formatI 1 a b _, toNat_formatR 2 a b c _, toNat_formatU 3 a _,
    toNat_formatI 4 a b _, toNat_formatI 5 a b _, toNat_formatI 6 a b _, toNat_formatI 7 a b u⟩

/-- Settles O1: the decoder computes each of the nine words. -/
theorem sampleWordsDecode : Obligations.SampleWordsDecode := by
  unfold Obligations.SampleWordsDecode
  decide

end Sys2Proof
end

