-- ==== Sys2Proof/Proofs/MemoryAndLaunch.lean ====
section
/-! PROOFS. The canonical form determines a memory by its reads (spec/20_memory.md section 1), and what the launch state
holds, from words (spec/70_reset_and_hazards.md rule R210) and from an image's bytes (spec/50_interfaces.md rules R165,
R166). -/

namespace Sys2Proof.Machine

open Sys2Proof.Claims

/-! ### Reads of a memory in canonical form -/

theorem Memory.wfFrom_cons_iff {lo k : Nat} {v : Word} {m : Memory} :
    Memory.wfFrom lo ((k, v) :: m) = true ↔ lo ≤ k ∧ k < Config.memSize ∧ v ≠ 0 ∧ Memory.wfFrom (k + 1) m = true := by
  simp only [Memory.wfFrom, Bool.and_eq_true, decide_eq_true_eq, bne_iff_ne, and_assoc]

theorem Memory.get_cons_self (k : Nat) (v : Word) (m : Memory) : Memory.get ((k, v) :: m) k = v := if_pos rfl

theorem Memory.get_cons_ne {k a : Nat} (h : k ≠ a) (v : Word) (m : Memory) : Memory.get ((k, v) :: m) a = m.get a :=
  if_neg h

/-- Below its lower bound a canonical memory lists nothing. -/
theorem Memory.get_eq_zero_of_lt {m : Memory} {lo a : Nat} (hm : Memory.wfFrom lo m = true) (ha : a < lo) :
    m.get a = 0 := by
  induction m generalizing lo with
  | nil => rfl
  | cons e m ih =>
    obtain ⟨hk, -, -, htail⟩ := Memory.wfFrom_cons_iff.1 hm
    rw [Memory.get_cons_ne (by omega)]
    exact ih htail (by omega)

/-- The first entry of a canonical memory lies no higher than the first entry of one that reads alike: its word is not
zero, so the other lists its address. -/
theorem Memory.head_le_of_get_eq {m m' : Memory} {lo lo' k k' : Nat} {v v' : Word}
    (hm : Memory.wfFrom lo ((k, v) :: m) = true) (hm' : Memory.wfFrom lo' ((k', v') :: m') = true)
    (h : ∀ a, Memory.get ((k, v) :: m) a = Memory.get ((k', v') :: m') a) : k' ≤ k := by
  obtain ⟨-, -, hv, -⟩ := Memory.wfFrom_cons_iff.1 hm
  obtain ⟨-, hk', hv', htail'⟩ := Memory.wfFrom_cons_iff.1 hm'
  by_contra hlt
  refine hv ?_
  rw [← Memory.get_cons_self k v m, h k]
  exact Memory.get_eq_zero_of_lt (Memory.wfFrom_cons_iff.2 ⟨le_rfl, hk', hv', htail'⟩) (Nat.lt_of_not_le hlt)

/-- Along both lists: the heads agree, and below the tails' bound both tails read zero. -/
theorem Memory.eq_of_get_eq {m m' : Memory} {lo : Nat} (hm : Memory.wfFrom lo m = true)
    (hm' : Memory.wfFrom lo m' = true) (h : ∀ a, m.get a = m'.get a) : m = m' := by
  induction m generalizing m' lo with
  | nil =>
    cases m' with
    | nil => rfl
    | cons e' m' =>
      obtain ⟨-, -, hv', -⟩ := Memory.wfFrom_cons_iff.1 hm'
      exact absurd ((Memory.get_cons_self e'.1 e'.2 m').symm.trans (h e'.1).symm) hv'
  | cons e m ih =>
    obtain ⟨k, v⟩ := e
    obtain ⟨-, -, hv, htail⟩ := Memory.wfFrom_cons_iff.1 hm
    cases m' with
    | nil => exact absurd ((Memory.get_cons_self k v m).symm.trans (h k)) hv
    | cons e' m' =>
      obtain ⟨k', v'⟩ := e'
      obtain ⟨-, -, -, htail'⟩ := Memory.wfFrom_cons_iff.1 hm'
      obtain rfl : k = k' :=
        Nat.le_antisymm (Memory.head_le_of_get_eq hm' hm fun a => (h a).symm) (Memory.head_le_of_get_eq hm hm' h)
      obtain rfl : v = v' := by simpa only [Memory.get_cons_self] using h k
      rw [ih htail htail' fun a => ?_]
      by_cases ha : k = a
      · rw [← ha, Memory.get_eq_zero_of_lt htail k.lt_succ_self, Memory.get_eq_zero_of_lt htail' k.lt_succ_self]
      · simpa only [Memory.get_cons_ne ha] using h a

/-- Settles O11, by induction along the two lists. -/
theorem canonicalMemoriesWithEqualReadsAreEqual : Obligations.CanonicalMemoriesWithEqualReadsAreEqual :=
  fun _ _ => Memory.eq_of_get_eq

/-! ### The launch state -/

/-- The word at index `k` of the list stands at address `a + k`, if that is in memory. -/
theorem Memory.get_ofWordsFrom (ws : List Word) {a k : Nat} (h : a + k < Config.memSize) :
    (Memory.ofWordsFrom a ws).get (a + k) = ws.getD k 0 := by
  induction ws generalizing a k with
  | nil => rfl
  | cons w ws ih =>
    have ha : ¬ Config.memSize ≤ a := by omega
    simp only [Memory.ofWordsFrom, if_neg ha]
    cases k with
    | zero =>
      split
      · rename_i hw
        rw [hw]
        exact Memory.get_eq_zero_of_lt (Memory.wfFrom_ofWordsFrom ws (a + 1)) a.lt_succ_self
      · exact Memory.get_cons_self a w _
    | succ k =>
      have hk : (Memory.ofWordsFrom (a + 1) ws).get (a + (k + 1)) = ws.getD k 0 := by
        rw [← ih (a := a + 1) (by omega), Nat.add_right_comm, Nat.add_assoc]
      rw [List.getD_cons_succ, ← hk]
      split
      · rfl
      · exact Memory.get_cons_ne (by omega) w _

/-- Register `k + 1` is stored at index `k` (R20). -/
theorem State.read_succ (s : State) (k : Fin 7) : s.read (BitVec.ofNat 3 (k.val + 1)) = s.regs[k.val] := by
  fin_cases k <;> rfl

/-- Settles O31: a list of words becomes a canonical memory, and the launch pc is in memory. -/
theorem everyLaunchStateMeetsTheInvariant : Obligations.EveryLaunchStateMeetsTheInvariant :=
  fun _ memInit => ⟨Memory.wfFrom_ofWordsFrom memInit 0, rfl⟩

/-- Settles O32: the memory lists nothing, and the reset pc is in memory. -/
theorem resetStateMeetsTheInvariant : Obligations.ResetStateMeetsTheInvariant := ⟨State.reset_mem_wf, rfl⟩

/-- Settles O33: each parameter stands where the launch put it. -/
theorem launchStateHoldsItsParameters : Obligations.LaunchStateHoldsItsParameters := by
  refine ⟨fun regInit memInit => ⟨rfl, rfl, State.read_zero _, State.read_succ _, fun k hk => ?_⟩, rfl⟩
  have hget := Memory.get_ofWordsFrom memInit (a := 0) (k := k) (by omega)
  rwa [Nat.zero_add] at hget

/-! ### The image -/

/-- Word `k` of an image is its byte `2k` plus 256 times its byte `2k + 1` (R166), a missing byte counting as 0. -/
theorem getD_wordsOfBytes (image : List Byte) (k : Nat) : ((wordsOfBytes image).getD k 0).toNat =
    (image.getD (2 * k) 0).toNat + 256 * (image.getD (2 * k + 1) 0).toNat := by
  induction image using wordsOfBytes.induct generalizing k with
  | case1 => simp [wordsOfBytes]
  | case2 lo =>
    cases k with
    | zero => simp [wordsOfBytes]; omega
    | succ k => simp [wordsOfBytes, Nat.mul_succ]
  | case3 lo hi rest ih =>
    cases k with
    | zero => exact (toNat_append_eq hi lo).trans (by simp; omega)
    | succ k => simpa [wordsOfBytes, Nat.mul_succ] using ih k

/-- Settles O41: the launch stores the image's words in order, and the size test is the rejection. -/
theorem imageBytesBecomeMemoryWords : Obligations.ImageBytesBecomeMemoryWords := by
  obtain ⟨hlaunch, -⟩ := launchStateHoldsItsParameters
  refine fun regInit image => ⟨fun hlen => ?_, fun hlen => if_neg (Nat.not_le_of_lt hlen)⟩
  obtain ⟨hrun, hpc, -, -, hmem⟩ := hlaunch regInit (wordsOfBytes image)
  refine ⟨_, if_pos hlen, hpc, hrun, fun k hk => ?_⟩
  rw [hmem k hk, getD_wordsOfBytes]

end Sys2Proof.Machine
end

