-- ==== Sys2Proof/Proofs/ExecForm.lean ====
section
/-! PROOFS. The one form every meaning has: the address error, or an effect on registers and memory followed by a
retirement at a target (spec/40_loop.md rule R80). `exec_eq` ties the form to `exec` once; what an instruction leaves
unchanged and what it depends on is then said of its parts. -/

namespace Sys2Proof.Machine

open Sys2Proof.Claims

/-! ### The parts of a meaning -/

/-- Is this a load or store whose effective address names no word (R123)? -/
def addressFaults (s : State) : Instr → Bool
  | .sw _ b imm => !inRange (s.operandAddress b imm)
  | .lw _ b imm => !inRange (s.operandAddress b imm)
  | _ => false

/-- The registers and memory a completed instruction leaves, the pc not yet moved. -/
def effect (s : State) : Instr → State
  | .add a b c => s.write a (s.read b + s.read c)
  | .addi a b imm => s.write a (s.read b + imm)
  | .nand a b c => s.write a (~~~(s.read b &&& s.read c))
  | .lui a imm => s.write a (upperImmediate imm)
  | .sw a b imm => s.memWrite (s.operandAddress b imm) (s.read a)
  | .lw a b imm => s.write a (s.memRead (s.operandAddress b imm))
  | .beq _ _ _ => s
  | .jalr a _ => s.write a (s.pc + 1)

/-- Where a completed instruction sends the pc (R25, R26). -/
def target (s : State) : Instr → Word
  | .beq a b imm => if s.regsEqual a b then s.pc + 1 + imm else s.pc + 1
  | .jalr a b => (s.write a (s.pc + 1)).read b
  | _ => s.pc + 1

/-- Every instruction answers a next state, made of its parts. -/
theorem exec_eq (i : Instr) (s : State) : exec i s =
    .next (if addressFaults s i then s.raiseAddressError else (effect s i).retire (target s i)) := by
  cases i with
  | sw a b imm =>
    by_cases h : inRange (s.operandAddress b imm) = true
    · exact (execSw_inRange h).trans (congrArg Host.Outcome.next (if_neg (by simp [addressFaults, h])).symm)
    · exact (execSw_outOfRange h).trans (congrArg Host.Outcome.next (if_pos (by simp [addressFaults, h])).symm)
  | lw a b imm =>
    by_cases h : inRange (s.operandAddress b imm) = true
    · exact (execLw_inRange h).trans (congrArg Host.Outcome.next (if_neg (by simp [addressFaults, h])).symm)
    · exact (execLw_outOfRange h).trans (congrArg Host.Outcome.next (if_pos (by simp [addressFaults, h])).symm)
  | add | addi | nand | lui | beq | jalr => rfl

/-- What an answer of a meaning can be. -/
theorem exec_cases {i : Instr} {s t : State} (h : exec i s = .next t) :
    (addressFaults s i = true ∧ t = s.raiseAddressError) ∨
      (addressFaults s i = false ∧ t = (effect s i).retire (target s i)) := by
  rw [exec_eq, Host.Outcome.next.injEq] at h
  cases hf : addressFaults s i with
  | true => exact .inl ⟨rfl, by simpa [hf] using h.symm⟩
  | false => exact .inr ⟨rfl, by simpa [hf] using h.symm⟩

theorem addressFaults_sw_iff {s : State} {a b : Reg} {imm : Word} :
    addressFaults s (.sw a b imm) = true ↔ Config.memSize ≤ (s.operandAddress b imm).toNat := by
  rw [← not_inRange_iff, addressFaults, Bool.not_eq_true', Bool.not_eq_true]

theorem addressFaults_lw_iff {s : State} {a b : Reg} {imm : Word} :
    addressFaults s (.lw a b imm) = true ↔ Config.memSize ≤ (s.operandAddress b imm).toNat := by
  rw [← not_inRange_iff, addressFaults, Bool.not_eq_true', Bool.not_eq_true]

/-- Only a load or store out of range faults. -/
theorem addressFaults_cases {s : State} {i : Instr} (h : addressFaults s i = true) :
    ∃ (a b : Reg) (imm : Word), (i = .sw a b imm ∨ i = .lw a b imm) ∧
      Config.memSize ≤ (s.operandAddress b imm).toNat := by
  cases i with
  | sw a b imm => exact ⟨a, b, imm, .inl rfl, addressFaults_sw_iff.1 h⟩
  | lw a b imm => exact ⟨a, b, imm, .inr rfl, addressFaults_lw_iff.1 h⟩
  | add | addi | nand | lui | beq | jalr => cases h

/-! ### What an effect leaves unchanged -/

@[simp] theorem effect_runState (s : State) (i : Instr) : (effect s i).runState = s.runState := by
  cases i <;> simp [effect]

theorem effect_read_of_ne_destination {s : State} {i : Instr} {r : Reg} (h : destination i ≠ some r) :
    (effect s i).read r = s.read r := by
  cases i with
  | sw | beq => rfl
  | add | addi | nand | lui | lw | jalr => exact State.read_write_ne s (fun e => h (congrArg some e.symm)) _

/-- Only `sw` touches memory, and then one word. -/
theorem effect_mem_cases (s : State) (i : Instr) :
    (effect s i).mem = s.mem ∨ ∃ (a b : Reg) (imm : Word), i = .sw a b imm ∧
      (effect s i).mem = s.mem.set (s.operandAddress b imm).toNat (s.read a) := by
  cases i with
  | sw a b imm => exact .inr ⟨a, b, imm, rfl, rfl⟩
  | add | addi | nand | lui | lw | beq | jalr => exact .inl (by simp [effect])

theorem target_beq_of_read_eq {s : State} {a b : Reg} (h : s.read a = s.read b) (imm : Word) :
    target s (.beq a b imm) = s.pc + 1 + imm :=
  if_pos ((regsEqual_iff s a b).2 h)

theorem target_beq_of_read_ne {s : State} {a b : Reg} (h : s.read a ≠ s.read b) (imm : Word) :
    target s (.beq a b imm) = s.pc + 1 :=
  if_neg (mt (regsEqual_iff s a b).1 h)

/-- Only a taken `beq` and a `jalr` send the pc anywhere but to the next word. -/
theorem target_cases (s : State) (i : Instr) :
    target s i = s.pc + 1 ∨
      (∃ (a b : Reg) (imm : Word), i = .beq a b imm ∧ s.read a = s.read b ∧ target s i = s.pc + 1 + imm) ∨
      ∃ a b : Reg, i = .jalr a b := by
  cases i with
  | beq a b imm =>
    by_cases h : s.read a = s.read b
    · exact .inr (.inl ⟨a, b, imm, rfl, h, target_beq_of_read_eq h imm⟩)
    · exact .inl (target_beq_of_read_ne h imm)
  | jalr a b => exact .inr (.inr ⟨a, b, rfl⟩)
  | add | addi | nand | lui | sw | lw => exact .inl rfl

/-- An instruction that answers leaves every register but its destination (R23). -/
theorem exec_read_of_ne_destination {i : Instr} {s t : State} {r : Reg} (h : exec i s = .next t)
    (hr : destination i ≠ some r) : t.read r = s.read r := by
  obtain ⟨-, rfl⟩ | ⟨-, rfl⟩ := exec_cases h
  · rfl
  · rw [State.retire_read, effect_read_of_ne_destination hr]

/-! ### What a meaning depends on -/

section Agree

variable {i : Instr} {s s' : State} (hsrc : ∀ r ∈ sources i, s.read r = s'.read r) (hpc : s.pc = s'.pc)
  (hmem : s.mem = s'.mem)

include hsrc

theorem addressFaults_congr : addressFaults s i = addressFaults s' i := by
  cases i with
  | sw a b imm => simp [addressFaults, State.operandAddress, hsrc b (by simp [sources])]
  | lw a b imm => simp [addressFaults, State.operandAddress, hsrc b (by simp [sources])]
  | add | addi | nand | lui | beq | jalr => rfl

include hpc in
theorem target_congr : target s i = target s' i := by
  cases i with
  | beq a b imm =>
    simp [target, State.regsEqual, hsrc a (by simp [sources]), hsrc b (by simp [sources]), hpc]
  | jalr a b => simp only [target, read_write_eq_ite, hsrc b (by simp [sources]), hpc]
  | add | addi | nand | lui | sw | lw => exact congrArg (· + 1) hpc

include hmem in
theorem effect_mem_congr : (effect s i).mem = (effect s' i).mem := by
  cases i with
  | sw a b imm =>
    simp [effect, State.operandAddress, hsrc a (by simp [sources]), hsrc b (by simp [sources]), hmem]
  | add | addi | nand | lui | lw | beq | jalr => simpa [effect] using hmem

include hpc hmem in
theorem effect_read_destination_congr {d : Reg} (hd : destination i = some d) :
    (effect s i).read d = (effect s' i).read d := by
  cases i with
  | sw | beq => cases hd
  | add a b c | nand a b c =>
    cases hd
    simp [effect, State.read_write, hsrc b (by simp [sources]), hsrc c (by simp [sources])]
  | addi a b imm => cases hd; simp [effect, State.read_write, hsrc b (by simp [sources])]
  | lui a imm => cases hd; simp [effect, State.read_write]
  | lw a b imm =>
    cases hd
    simp [effect, State.read_write, State.memRead, State.operandAddress, hsrc b (by simp [sources]), hmem]
  | jalr a b => cases hd; simp [effect, State.read_write, hpc]

end Agree

/-- Settles O24: the two states fault together, and where they complete, each part of the meaning agrees. -/
theorem onlySourceRegistersMatter : Obligations.OnlySourceRegistersMatter := by
  intro i s s' t t' hsrc hpc hmem hrun ht ht'
  rw [exec_eq, Host.Outcome.next.injEq] at ht ht'
  subst ht ht'
  rw [← addressFaults_congr hsrc]
  cases addressFaults s i with
  | true => exact ⟨hpc, hmem, rfl, fun hne => absurd rfl hne⟩
  | false =>
    simp only [Bool.false_eq_true, if_false, State.retire_pc, State.retire_mem, State.retire_runState,
      State.retire_read, effect_runState]
    exact ⟨target_congr hsrc hpc, effect_mem_congr hsrc hmem, by rw [target_congr hsrc hpc, hrun],
      fun _ d hd => effect_read_destination_congr hsrc hpc hmem hd⟩

/-! ### The no-operation forms (R70) -/

theorem State.writeback_zero (s : State) (v : Word) : s.writeback 0 v = s.retire (s.pc + 1) :=
  congrArg (State.retire · (s.pc + 1)) (State.write_zero s v)

theorem execBeq_eq_retire_target (s : State) (a b : Reg) (imm : Word) :
    exec (.beq a b imm) s = .next (s.retire (target s (.beq a b imm))) := rfl

theorem target_beq_zero (s : State) (a b : Reg) : target s (.beq a b 0) = s.pc + 1 := by
  simp only [target, show s.pc + 1 + (0 : Word) = s.pc + 1 from BitVec.add_zero _, ite_self]

/-- Settles O23: a write to register 0 is dropped, and both targets of such a `beq` are the next word. -/
theorem noOperationFormsOnlyAdvanceThePc : Obligations.NoOperationFormsOnlyAdvanceThePc := fun s a b _ imm =>
  ⟨congrArg Host.Outcome.next (State.writeback_zero s _), congrArg Host.Outcome.next (State.writeback_zero s _),
    congrArg Host.Outcome.next (State.writeback_zero s _), congrArg Host.Outcome.next (State.writeback_zero s _),
    fun h => by rw [execBeq_eq_retire_target, target_beq_of_read_ne h],
    by rw [execBeq_eq_retire_target, target_beq_zero], by decide⟩

end Sys2Proof.Machine
end

