-- ==== Sys2Proof/Proofs/LoadStore.lean ====
section
/-! PROOFS. The addressing mode and the two instructions that use it (spec/42_load_store.md rules R120 to R123,
spec/20_memory.md rule R43). -/

namespace Sys2Proof

open Sys2Proof.Machine Sys2Proof.Claims

/-! ### The effective address -/

/-- The effective address in the spec's numbers (R120). -/
theorem effectiveAddress_sext16_toNat (base : Word) (v : BitVec 7) :
    (effectiveAddress base (sext16 v)).toNat = (base.toNat * 2 ^ 8 + sextNat v.toNat) % 65536 := by
  rw [effectiveAddress_toNat, sext16_toNat_eq_sextNat]

theorem operandAddress_sext16_toNat (s : State) (b : Reg) (v : BitVec 7) :
    (s.operandAddress b (sext16 v)).toNat = ((s.read b).toNat * 2 ^ 8 + sextNat v.toNat) % 65536 :=
  effectiveAddress_sext16_toNat (s.read b) v

/-- The scaling shifts bits 15:8 of the base out. -/
theorem effectiveAddress_and_low_byte (base imm : Word) :
    effectiveAddress base imm = effectiveAddress (base &&& 0x00FF) imm := by
  have hlow : (base &&& 0x00FF).toNat = base.toNat % 256 :=
    (BitVec.toNat_and base 0x00FF).trans (Nat.and_two_pow_sub_one_eq_mod base.toNat 8)
  apply BitVec.eq_of_toNat_eq
  rw [effectiveAddress_toNat, effectiveAddress_toNat, hlow]
  omega

/-- Settles O12: the sum in numbers, the lost high byte, the worked values, and the destination as the only register a
load or store can change. -/
theorem effectiveAddressScalesTheBase : Obligations.EffectiveAddressScalesTheBase := by
  refine ⟨operandAddress_sext16_toNat, fun base v => effectiveAddress_and_low_byte base (sext16 v), by decide, ?_⟩
  rintro s t a b v (hsw | ⟨hab, hlw⟩)
  · exact exec_read_of_ne_destination hsw (by simp [destination])
  · exact exec_read_of_ne_destination hlw (by simpa [destination] using hab)

/-- The displacement reaches 63 words up and, modulo `2^16`, 64 words down. -/
theorem sextNat_bounds {n : Nat} (h : n < 128) : sextNat n ≤ 63 ∨ (0xFFC0 ≤ sextNat n ∧ sextNat n ≤ 0xFFFF) := by
  unfold sextNat
  split <;> omega

/-- Settles O13: scaled bases are multiples of 256, and the displacement reaches 64 below and 63 above one; an address of
the bands is reached from the nearest multiple. -/
theorem dataAccessesReachThreeBands : Obligations.DataAccessesReachThreeBands := by
  intro a
  constructor
  · rintro ⟨⟨base, v, rfl⟩, hlt⟩
    have hdisp := sextNat_bounds v.isLt
    rw [memSize_eq] at hlt
    rw [effectiveAddress_sext16_toNat] at hlt ⊢
    omega
  · intro hband
    refine ⟨⟨BitVec.ofNat 16 ((a + 64) / 256), BitVec.ofNat 7 (a % 128), ?_⟩, by rw [memSize_eq]; omega⟩
    rw [effectiveAddress_sext16_toNat, BitVec.toNat_ofNat, BitVec.toNat_ofNat, sextNat, Config.xlen]
    split <;> omega

/-! ### The two instructions -/

theorem inRange_operandAddress {s : State} {b : Reg} {imm7 : BitVec 7}
    (h : ((s.read b).toNat * 2 ^ 8 + sextNat imm7.toNat) % 65536 < Config.memSize) :
    inRange (s.operandAddress b (sext16 imm7)) = true := by
  rwa [inRange_iff, operandAddress_sext16_toNat]

/-- Settles O18: in range the meaning is one memory write and a retirement. -/
theorem swStoresInRange : Obligations.SwStoresInRange := by
  intro a b imm7 s ea hea
  refine ⟨_, execSw_inRange (inRange_operandAddress hea), ?_, fun x hx => ?_, fun r => ?_, State.retire_pc _ _,
    haltTest_retire rfl _⟩
  · rw [State.retire_mem, State.memWrite_mem, operandAddress_sext16_toNat, Memory.get_set, if_pos rfl]
  · rw [State.retire_mem, State.memWrite_mem, operandAddress_sext16_toNat, Memory.get_set, if_neg hx]
  · rw [State.retire_read, State.memWrite_read]

/-- Settles O19: in range the meaning is a write-back of the word read. -/
theorem lwLoadsInRange : Obligations.LwLoadsInRange := by
  intro a b imm7 s ea hea
  have hread : s.memRead (s.operandAddress b (sext16 imm7)) = s.mem.get ea := by
    rw [State.memRead, operandAddress_sext16_toNat]
  rw [← hread]
  exact writesOneRegister_of_exec_eq_writeback (execLw_inRange (inRange_operandAddress hea))

/-- Settles O20: out of range either meaning is the bare raise. -/
theorem outOfRangeDataAddressRaises : Obligations.OutOfRangeDataAddressRaises := by
  intro a b imm7 s hea
  have hout : ¬ inRange (s.operandAddress b (sext16 imm7)) = true := by
    rwa [not_inRange_iff, operandAddress_sext16_toNat]
  exact ⟨execSw_outOfRange hout, execLw_outOfRange hout⟩

end Sys2Proof
end

