-- ==== Sys2Proof/Proofs/Step.lean ====
section
/-! PROOFS. The step (spec/40_loop.md rule R80): when it is the meaning of the fetched instruction, the list of its
ends, what it leaves unchanged, and the invariant every step keeps. -/

namespace Sys2Proof.Machine

open Sys2Proof.Claims

/-! ### Fetch, decode, dispatch -/

/-- In `RUNNING`, with the pc in memory, the step is the meaning of the fetched instruction (R81, R82, R84). -/
theorem step_eq_exec {s : State} {i : Instr} (hrun : s.runState = .running) (hpc : inRange s.pc = true)
    (hi : decode (s.memRead s.pc) = .instr i) : step s = exec i s := by
  simp only [step, hrun, State.fetch, hpc, if_true, hi]

/-- Nothing but a meaning answers a next state: the default arm is dead (R68). -/
theorem exec_of_step_next {s t : State} (h : step s = .next t) :
    s.runState = .running ∧ inRange s.pc = true ∧ ∃ i, decode (s.memRead s.pc) = .instr i ∧ exec i s = .next t := by
  obtain ⟨hrun, hpc, hi | ⟨n, hn, -⟩⟩ := step_next_cases h
  · exact ⟨hrun, hpc, hi⟩
  · obtain ⟨i, hi⟩ := everyWordIsAnInstruction (s.memRead s.pc)
    cases hn.symm.trans hi

/-- Settles O25: the two premises of the fetch and the decoded word are all the step looks at. -/
theorem stepRunsTheFetchedInstruction : Obligations.StepRunsTheFetchedInstruction :=
  fun s _ hrun hpc hi => step_eq_exec hrun ((inRange_iff s.pc).2 hpc) hi

/-- Settles O27: the step looks at the loop state before anything else. -/
theorem terminalStatesHaveNoSuccessor : Obligations.TerminalStatesHaveNoSuccessor := by
  refine fun s => ⟨fun hrun t h => hrun (exec_of_step_next h).1, fun h => ?_, fun h => ?_, fun h => ?_⟩ <;>
  · simp only [step, h]

/-- Settles O28: the fetch answers no word. -/
theorem fetchOutsideMemoryFaults : Obligations.FetchOutsideMemoryFaults := by
  intro s hrun hpc
  simp only [step, hrun, State.fetch, if_neg ((not_inRange_iff s.pc).2 hpc)]

/-- Settles O29: the fetched word is an instruction, and every instruction answers a next state. -/
theorem runningStatesAlwaysStep : Obligations.RunningStatesAlwaysStep := by
  rintro s ⟨-, hpc⟩ hrun
  obtain ⟨i, hi⟩ := everyWordIsAnInstruction (s.memRead s.pc)
  rw [State.pcLegal, hrun] at hpc
  exact ⟨_, (step_eq_exec hrun hpc hi).trans (exec_eq i s)⟩

/-! ### The ends of a step -/

/-- A step has raised the address error at a load or store out of range, or it has completed its instruction. -/
theorem step_cases {s t : State} (h : step s = .next t) :
    s.runState = .running ∧ inRange s.pc = true ∧ ∃ i, decode (s.memRead s.pc) = .instr i ∧
      ((addressFaults s i = true ∧ t = s.raiseAddressError) ∨
        (addressFaults s i = false ∧ t = (effect s i).retire (target s i))) := by
  obtain ⟨hrun, hpc, i, hi, ht⟩ := exec_of_step_next h
  exact ⟨hrun, hpc, i, hi, exec_cases ht⟩

/-- Settles O35: a completed step ends by the termination test, and only a load or store out of range does not
complete. -/
theorem stepEndsOnlyAsListed : Obligations.StepEndsOnlyAsListed := by
  intro s t h
  obtain ⟨hrun, -, i, hi, ⟨hf, rfl⟩ | ⟨-, rfl⟩⟩ := step_cases h
  · obtain ⟨a, b, imm, hsl, hea⟩ := addressFaults_cases hf
    exact .inr (.inr ⟨rfl, a, b, imm, hsl.imp (fun e => hi.trans (congrArg _ e)) (fun e => hi.trans (congrArg _ e)), hea⟩)
  · rw [State.retire_runState, State.retire_pc, effect_runState]
    by_cases htarget : inRange (target s i) = true
    · exact .inl ⟨(if_pos htarget).trans hrun, (inRange_iff _).1 htarget⟩
    · exact .inr (.inl ⟨if_neg htarget, (not_inRange_iff _).1 htarget⟩)

/-- Settles O34: none of the listed ends is `HALTED_ILLEGAL`. -/
theorem noStepReachesHaltedIllegal : Obligations.NoStepReachesHaltedIllegal := by
  intro s t h hillegal
  obtain ⟨hrun, -⟩ | ⟨hrun, -⟩ | ⟨rfl, -⟩ := stepEndsOnlyAsListed s t h
  · cases hrun.symm.trans hillegal
  · cases hrun.symm.trans hillegal
  · cases hillegal

/-! ### The invariant -/

theorem operandAddress_lt_of_sw_completes {s : State} {a b : Reg} {imm : Word}
    (hf : addressFaults s (.sw a b imm) = false) : (s.operandAddress b imm).toNat < Config.memSize :=
  Nat.lt_of_not_le fun h => Bool.false_ne_true (hf.symm.trans (addressFaults_sw_iff.2 h))

/-- A completed effect keeps the canonical form: a `sw` that does not fault stores to a word of the memory. -/
theorem effect_mem_wf {s : State} {i : Instr} (hf : addressFaults s i = false) (hm : s.mem.wf = true) :
    (effect s i).mem.wf = true := by
  obtain h | ⟨a, b, imm, rfl, h⟩ := effect_mem_cases s i
  · rwa [h]
  · rw [h]
    exact Memory.wf_set _ (operandAddress_lt_of_sw_completes hf) hm

/-- The termination test puts the pc where the loop state says. -/
theorem State.retire_pcLegal {u : State} (hrun : u.runState = .running) (pc : Word) : (u.retire pc).pcLegal = true := by
  by_cases h : inRange pc = true <;> simp [State.pcLegal, h, hrun]

/-- Settles O30: a raise moves neither memory nor the pc, and a completed instruction stores in range and ends in the
termination test. -/
theorem stepKeepsTheInvariant : Obligations.StepKeepsTheInvariant := by
  rintro s t ⟨hmem, -⟩ h
  obtain ⟨hrun, hpc, i, -, ⟨-, rfl⟩ | ⟨hf, rfl⟩⟩ := step_cases h
  · exact ⟨hmem, hpc⟩
  · refine ⟨?_, State.retire_pcLegal (by rw [effect_runState, hrun]) _⟩
    rw [State.retire_mem]
    exact effect_mem_wf hf hmem

/-! ### What a step leaves unchanged -/

/-- Settles O36: the effect of a completed `sw` is the one write to memory there is. -/
theorem onlyAStoreChangesMemory : Obligations.OnlyAStoreChangesMemory := by
  intro s t x h hx
  obtain ⟨-, -, i, hi, ⟨-, rfl⟩ | ⟨hf, rfl⟩⟩ := step_cases h
  · exact absurd rfl hx
  rw [State.retire_mem] at hx ⊢
  obtain hsame | ⟨a, b, imm, rfl, hset⟩ := effect_mem_cases s i
  · exact absurd (congrArg (Memory.get · x) hsame) hx
  rw [hset, Memory.get_set] at hx ⊢
  have hxea : x = (s.operandAddress b imm).toNat := not_not.1 fun hne => hx (if_neg hne)
  exact ⟨a, b, imm, hi, hxea, hxea ▸ operandAddress_lt_of_sw_completes hf, if_pos hxea⟩

/-- Settles O37: a meaning leaves every register but its destination, and register 0 always reads 0. -/
theorem onlyTheDestinationRegisterChanges : Obligations.OnlyTheDestinationRegisterChanges := by
  intro s t r h hr
  obtain ⟨-, -, i, hi, ht⟩ := exec_of_step_next h
  refine ⟨?_, i, hi, not_not.1 fun hd => hr (exec_read_of_ne_destination ht hd)⟩
  rintro rfl
  exact hr ((State.read_zero t).trans (State.read_zero s).symm)

/-- Settles O38: a completed instruction's pc is its target. -/
theorem onlyControlTransfersRedirectThePc : Obligations.OnlyControlTransfersRedirectThePc := by
  intro s t h hpc
  obtain ⟨-, -, i, hi, ⟨-, rfl⟩ | ⟨-, rfl⟩⟩ := step_cases h
  · exact .inl rfl
  rw [State.retire_pc] at hpc ⊢
  obtain hnext | ⟨a, b, imm, rfl, hab, htaken⟩ | ⟨a, b, rfl⟩ := target_cases s i
  · exact absurd hnext hpc
  · exact .inr (.inl ⟨a, b, imm, hi, hab, htaken⟩)
  · exact .inr (.inr ⟨a, b, hi⟩)

/-! ### A store to the next word -/

theorem State.inRange_of_retire_running {u : State} {pc : Word} (h : (u.retire pc).runState = .running) :
    inRange pc = true := by
  by_contra hout
  rw [State.retire_runState, if_neg hout] at h
  cases h

/-- Settles O39: the step that stored still runs, so it ended in the termination test at the address it stored to, and
the fetch reads what was stored. -/
theorem storeIsSeenByTheNextFetch : Obligations.StoreIsSeenByTheNextFetch := by
  intro s t a b imm i h hsw hea hrun hi
  obtain ⟨-, -, j, hj, ht⟩ := step_cases h
  cases hj.symm.trans hsw
  obtain ⟨-, rfl⟩ | ⟨-, rfl⟩ := ht
  · cases hrun
  have hstored : (effect s (.sw a b imm)).mem.get (s.pc + 1).toNat = s.read a := by
    rw [← hea]
    exact (Memory.get_set _ _ _ _).trans (if_pos rfl)
  refine step_eq_exec hrun ?_ ?_
  · rw [State.retire_pc]
    exact State.inRange_of_retire_running hrun
  · rw [State.memRead, State.retire_pc, State.retire_mem]
    exact (congrArg decode hstored).trans hi

/-! ### The fields of the fetched word as numbers (R67) -/

theorem decodeFields_opcode_toNat (w : Word) : (decodeFields w).opcode.toNat = slice w.toNat 15 13 :=
  extractLsb'_toNat_eq_slice w 13 2

theorem decodeFields_regA_toNat (w : Word) : (decodeFields w).regA.toNat = slice w.toNat 12 10 :=
  extractLsb'_toNat_eq_slice w 10 2

theorem decodeFields_regB_toNat (w : Word) : (decodeFields w).regB.toNat = slice w.toNat 9 7 :=
  extractLsb'_toNat_eq_slice w 7 2

theorem decodeFields_regC_toNat (w : Word) : (decodeFields w).regC.toNat = slice w.toNat 2 0 :=
  extractLsb'_toNat_eq_slice w 0 2

theorem decodeFields_imm7_toNat (w : Word) : (decodeFields w).imm7.toNat = sextNat (slice w.toNat 6 0) :=
  (sext16_toNat_eq_sextNat _).trans (congrArg sextNat (extractLsb'_toNat_eq_slice w 0 6))

theorem decodeFields_imm10_toNat (w : Word) : (decodeFields w).imm10.toNat = slice w.toNat 9 0 :=
  (zext16_toNat _).trans (extractLsb'_toNat_eq_slice w 0 9)

/-- `x[i]` for a selector written as a number is the register read (R9). -/
theorem x_toNat (s : State) (r : Reg) : x s r.toNat = (s.read r).toNat := by
  rw [x, BitVec.ofNat_toNat, BitVec.setWidth_eq]

/-! ### The status outputs (R163) -/

theorem State.raised_iff (s : State) :
    s.raised = true ↔ s.runState = .haltedIllegal ∨ s.runState = .haltedAddress := by
  simp [State.raised]

theorem State.offendingWord_of_raised {s : State} (h : s.raised = true) : s.offendingWord = some (s.memRead s.pc) :=
  if_pos h

theorem State.offendingOpcode_of_raised {s : State} (h : s.raised = true) :
    s.offendingOpcode = some ((s.memRead s.pc).extractLsb' 13 3) :=
  congrArg (Option.map fun w => (decodeFields w).opcode) (State.offendingWord_of_raised h)

theorem State.offendingAddress_of_haltedAddress {s : State} (h : s.runState = .haltedAddress) :
    s.offendingAddress =
      some (s.operandAddress (decodeFields (s.memRead s.pc)).regB (decodeFields (s.memRead s.pc)).imm7) :=
  if_pos h

theorem State.offendingWord_of_not_raised {s : State} (h : ¬ s.raised = true) : s.offendingWord = none := if_neg h

/-- The opcode of a load or store makes its base and displacement the fields of its word. -/
theorem fields_of_decode_loadStore {w : Word} {a b : Reg} {imm : Word}
    (h : decode w = .instr (.sw a b imm) ∨ decode w = .instr (.lw a b imm)) :
    b = (decodeFields w).regB ∧ imm = (decodeFields w).imm7 := by
  obtain h | h := h
  · have hop : (decodeFields w).opcode = 4 := opcode_eq_of_and_opcodeMask (p := 4) (and_opcodeMask_of_decode h)
    cases h.symm.trans (dispatchOpcode_sw hop)
    exact ⟨rfl, rfl⟩
  · have hop : (decodeFields w).opcode = 5 := opcode_eq_of_and_opcodeMask (p := 5) (and_opcodeMask_of_decode h)
    cases h.symm.trans (dispatchOpcode_lw hop)
    exact ⟨rfl, rfl⟩

/-- A load or store that faults does so at the address the fields of its word name. -/
theorem operandAddress_fields_of_addressFaults {s : State} {w : Word} {i : Instr} (hi : decode w = .instr i)
    (hf : addressFaults s i = true) :
    Config.memSize ≤ (s.operandAddress (decodeFields w).regB (decodeFields w).imm7).toNat := by
  obtain ⟨a, b, imm, hsl, hea⟩ := addressFaults_cases hf
  obtain ⟨hb, himm⟩ := fields_of_decode_loadStore (hsl.imp (· ▸ hi) (· ▸ hi))
  rwa [hb, himm] at hea

/-- The address the fields of a word name, in the spec's slices (R120). -/
theorem operandAddress_fields_toNat (s : State) (w : Word) :
    (s.operandAddress (decodeFields w).regB (decodeFields w).imm7).toNat =
      (x s (slice w.toNat 9 7) * 2 ^ 8 + sextNat (slice w.toNat 6 0)) % 65536 := by
  rw [State.operandAddress, effectiveAddress_toNat, decodeFields_imm7_toNat, ← decodeFields_regB_toNat, x_toNat]

/-- Settles O40: the outputs by their conditions; and a raise leaves the pc, the word there and the registers, from which
they recompute what the step computed. -/
theorem statusOutputsNameTheOffendingAccess : Obligations.StatusOutputsNameTheOffendingAccess := by
  constructor
  · intro s w
    refine ⟨fun h => ?_, State.offendingAddress_of_haltedAddress, fun h => ?_, fun h => if_neg h⟩
    · have hraised := (State.raised_iff s).2 h
      exact ⟨State.offendingWord_of_raised hraised, State.offendingOpcode_of_raised hraised⟩
    · have hword : s.offendingWord = none := State.offendingWord_of_not_raised (by
        obtain h | h := h <;> simp [State.raised_iff, h])
      exact ⟨hword, congrArg (Option.map _) hword⟩
  · intro s t h ht w ea
    obtain ⟨hrun, -, i, hi, ⟨hf, rfl⟩ | ⟨-, rfl⟩⟩ := step_cases h
    · have hraised : s.raiseAddressError.raised = true := rfl
      have haddr : s.raiseAddressError.offendingAddress =
          some (s.operandAddress (decodeFields w).regB (decodeFields w).imm7) :=
        State.offendingAddress_of_haltedAddress ht
      have hea : (s.operandAddress (decodeFields w).regB (decodeFields w).imm7).toNat = ea :=
        operandAddress_fields_toNat s w
      refine ⟨rfl, State.offendingWord_of_raised hraised, State.offendingOpcode_of_raised hraised, haddr, ?_, ?_⟩
      · rw [haddr, ← hea, pattern_toNat]
      · rw [← hea]
        exact operandAddress_fields_of_addressFaults hi hf
    · rw [State.retire_runState, effect_runState, hrun] at ht
      split at ht <;> cases ht

end Sys2Proof.Machine
end

