-- ==== Sys2Proof/Proofs/SpecBlock.lean ====
section
/-! PROOFS. The step is the spec's pseudocode block of R80 (spec/40_loop.md section 1): the block's numbers are the
decoder's fields and the model's words, so that under each opcode its line is the instruction's meaning. -/

namespace Sys2Proof.Machine

open Sys2Proof.Claims

/-! ### The block's operations are the model's -/

theorem setX_toNat (s : State) (r : Reg) (v : Nat) : setX s r.toNat v = s.write r (pattern v) := by
  rw [setX, BitVec.ofNat_toNat, BitVec.setWidth_eq]

theorem toNat_pattern (n : Nat) : (pattern n).toNat = n % 65536 := by
  rw [pattern_eq_ofNat, BitVec.toNat_ofNat, Config.xlen]

/-- Actions 5 and 6 of R80 are the retirement. -/
theorem endStep_toNat (s : State) (pc : Word) : endStep s pc.toNat = s.retire pc := by
  rw [endStep, pattern_toNat, State.retire, ← memSize_eq]
  by_cases h : inRange pc = true
  · rw [if_pos h, if_neg (Nat.not_le_of_lt ((inRange_iff pc).1 h))]
  · rw [if_neg h, if_pos ((not_inRange_iff pc).1 h)]

theorem endStep_mod (s : State) (n : Nat) : endStep s (n % 65536) = s.retire (pattern n) := by
  rw [← toNat_pattern, endStep_toNat]

theorem upperImmediate_eq_pattern (imm10 : Word) : upperImmediate imm10 = pattern (imm10.toNat * 2 ^ 6) := by
  apply BitVec.eq_of_toNat_eq
  rw [upperImmediate, BitVec.toNat_shiftLeft, Nat.shiftLeft_eq, toNat_pattern]
  rfl

theorem target_beq_toNat (s : State) (a b : Reg) (imm : Word) : (target s (.beq a b imm)).toNat =
    if (s.read a).toNat = (s.read b).toNat then (s.pc.toNat + 1 + imm.toNat) % 65536 else (s.pc.toNat + 1) % 65536 := by
  by_cases h : s.read a = s.read b
  · rw [target_beq_of_read_eq h, if_pos (congrArg BitVec.toNat h), ← toNat_pattern, pattern_add, ← add_one_eq_pattern,
      pattern_toNat]
  · rw [target_beq_of_read_ne h, if_neg (mt BitVec.eq_of_toNat_eq h), ← toNat_pattern, ← add_one_eq_pattern]

/-- Settles O26: read in the decoder's fields and the model's words, the line of each opcode is the instruction's
meaning; only a load or store has a test of its own to compare. -/
theorem stepComputesTheSpecBlock : Obligations.StepComputesTheSpecBlock := by
  intro s hrun hmem
  have hpc : inRange s.pc = true := (inRange_iff s.pc).2 hmem
  simp only [stepBlock, ← decodeFields_opcode_toNat, ← decodeFields_regA_toNat, ← decodeFields_regB_toNat,
    ← decodeFields_regC_toNat, ← decodeFields_imm7_toNat, ← decodeFields_imm10_toNat, x_toNat, setX_toNat,
    ← target_beq_toNat, ← effectiveAddress_toNat, endStep_mod, endStep_toNat, ← add_eq_pattern, ← add_one_eq_pattern,
    ← nand_eq_pattern, ← upperImmediate_eq_pattern, pattern_toNat]
  obtain hp | hp | hp | hp | hp | hp | hp | hp := opcode_cases (decodeFields (s.mem.get s.pc.toNat)).opcode <;> rw [hp]
  · exact step_eq_exec hrun hpc (dispatchOpcode_add hp)
  · exact step_eq_exec hrun hpc (dispatchOpcode_addi hp)
  · exact step_eq_exec hrun hpc (dispatchOpcode_nand hp)
  · exact step_eq_exec hrun hpc (dispatchOpcode_lui hp)
  · rw [step_eq_exec hrun hpc (dispatchOpcode_sw hp), exec_eq]
    exact congrArg Host.Outcome.next (if_congr addressFaults_sw_iff rfl rfl)
  · rw [step_eq_exec hrun hpc (dispatchOpcode_lw hp), exec_eq]
    exact congrArg Host.Outcome.next (if_congr addressFaults_lw_iff rfl rfl)
  · exact step_eq_exec hrun hpc (dispatchOpcode_beq hp)
  · exact step_eq_exec hrun hpc (dispatchOpcode_jalr hp)

end Sys2Proof.Machine
end

