-- ==== Sys2Proof/Proofs/Runs.lean ====
section
/-! PROOFS. The run (spec/40_loop.md rule R90): the executor under fuel answers by the run's own definition, a run from a
state of the invariant never stops otherwise, and a branch to itself never ends one. -/

namespace Sys2Proof.Machine

open Sys2Proof.Claims

/-! ### The end of a run, one step at a time -/

/-- A terminal state is the end of its own run, and of no longer one. -/
theorem State.endsAfter_of_terminal {s t : State} {n : Nat} (hs : s.terminal = true) :
    s.EndsAfter n t ↔ n = 0 ∧ s = t := by
  constructor
  · rintro ⟨hafter, -, hfirst⟩
    cases n with
    | zero => exact ⟨rfl, Option.some.inj hafter⟩
    | succ n => exact absurd (hs.symm.trans (hfirst 0 n.succ_pos s rfl)) (by decide)
  · rintro ⟨rfl, rfl⟩
    exact ⟨rfl, hs, fun m hm => absurd hm m.not_lt_zero⟩

/-- The run of a state that is not terminal ends one step later than the run of its successor. -/
theorem State.endsAfter_iff_of_not_terminal {s t : State} {n : Nat} (hs : s.terminal = false) :
    s.EndsAfter n t ↔ ∃ m u, n = m + 1 ∧ step s = .next u ∧ u.EndsAfter m t := by
  constructor
  · rintro ⟨hafter, ht, hfirst⟩
    cases n with
    | zero => cases hafter; exact absurd (hs.symm.trans ht) (by decide)
    | succ n =>
      obtain ⟨u, hu, hut⟩ := State.after_succ_cases hafter
      exact ⟨n, u, rfl, hu, hut, ht, fun m hm v hv =>
        hfirst (m + 1) (Nat.succ_lt_succ hm) v ((State.after_succ hu m).trans hv)⟩
  · rintro ⟨m, u, rfl, hu, hafter, ht, hfirst⟩
    refine ⟨(State.after_succ hu m).trans hafter, ht, fun k hk v hv => ?_⟩
    cases k with
    | zero => cases hv; exact hs
    | succ k => exact hfirst k (Nat.lt_of_succ_lt_succ hk) v ((State.after_succ hu k).symm.trans hv)

/-! ### What the executor answers, one step at a time -/

theorem RunResult.addStep_eq_ended_iff {r : RunResult} {n : Nat} {t : State} :
    r.addStep = .ended n t ↔ ∃ m, n = m + 1 ∧ r = .ended m t := by
  cases r <;> simp [RunResult.addStep, eq_comm]

theorem RunResult.addStep_eq_outOfFuel_iff {r : RunResult} {t : State} : r.addStep = .outOfFuel t ↔ r = .outOfFuel t := by
  cases r <;> simp [RunResult.addStep]

theorem State.terminal_eq_false_iff (s : State) : s.terminal = false ↔ s.runState = .running := by
  simp [State.terminal]

theorem State.runFuel_zero_of_not_terminal {s : State} (hs : s.terminal = false) : s.runFuel 0 = .outOfFuel s := by
  simp only [State.runFuel, hs, Bool.false_eq_true, if_false]

section NotTerminal

variable {s t : State} {fuel n : Nat} (hs : s.terminal = false)
include hs

theorem State.runFuel_succ_eq_ended_iff : s.runFuel (fuel + 1) = .ended n t ↔
    ∃ m u, n = m + 1 ∧ step s = .next u ∧ u.runFuel fuel = .ended m t := by
  cases hstep : step s with
  | next u => simp [State.runFuel_step hs hstep, RunResult.addStep_eq_ended_iff]
  | fault r => simp [State.runFuel, hs, hstep]
  | refused r => simp [State.runFuel, hs, hstep]

theorem State.runFuel_succ_eq_outOfFuel_iff : s.runFuel (fuel + 1) = .outOfFuel t ↔
    ∃ u, step s = .next u ∧ u.runFuel fuel = .outOfFuel t := by
  cases hstep : step s with
  | next u => simp [State.runFuel_step hs hstep, RunResult.addStep_eq_outOfFuel_iff]
  | fault r => simp [State.runFuel, hs, hstep]
  | refused r => simp [State.runFuel, hs, hstep]

end NotTerminal

theorem State.runFuel_eq_ended_iff_of_terminal {s t : State} {fuel n : Nat} (hs : s.terminal = true) :
    s.runFuel fuel = .ended n t ↔ n ≤ fuel ∧ s.EndsAfter n t := by
  rw [State.runFuel_terminal hs, State.endsAfter_of_terminal hs, RunResult.ended.injEq, eq_comm (a := 0)]
  exact ⟨fun ⟨hn, ht⟩ => ⟨hn ▸ fuel.zero_le, hn, ht⟩, And.right⟩

/-- R90, the end: by induction on the fuel, a step of the executor being a step of the run. -/
theorem State.runFuel_eq_ended_iff {s t : State} {fuel n : Nat} :
    s.runFuel fuel = .ended n t ↔ n ≤ fuel ∧ s.EndsAfter n t := by
  induction fuel generalizing s n with
  | zero =>
    cases hs : s.terminal with
    | true => exact State.runFuel_eq_ended_iff_of_terminal hs
    | false =>
      rw [State.runFuel_zero_of_not_terminal hs, State.endsAfter_iff_of_not_terminal hs]
      exact ⟨nofun, fun ⟨hle, _, _, hn, _⟩ => absurd (hn ▸ hle) (Nat.not_succ_le_zero _)⟩
  | succ fuel ih =>
    cases hs : s.terminal with
    | true => exact State.runFuel_eq_ended_iff_of_terminal hs
    | false =>
      rw [State.runFuel_succ_eq_ended_iff hs, State.endsAfter_iff_of_not_terminal hs]
      simp only [ih]
      constructor
      · rintro ⟨m, u, rfl, hu, hle, hends⟩
        exact ⟨Nat.succ_le_succ hle, m, u, rfl, hu, hends⟩
      · rintro ⟨hle, m, u, rfl, hu, hends⟩
        exact ⟨m, u, rfl, hu, Nat.le_of_succ_le_succ hle, hends⟩

/-! ### No end within the fuel -/

/-- The run from `s` is in `t` after `n` steps, and every state up to there is `RUNNING`. -/
def State.GoesOnTo (s : State) (n : Nat) (t : State) : Prop :=
  s.after n = some t ∧ ∀ m ≤ n, ∀ u, s.after m = some u → u.runState = .running

theorem State.GoesOnTo.running {s t : State} {n : Nat} (h : s.GoesOnTo n t) : s.runState = .running :=
  h.2 0 n.zero_le s rfl

theorem State.goesOnTo_zero_iff {s t : State} : s.GoesOnTo 0 t ↔ s.runState = .running ∧ s = t := by
  constructor
  · exact fun h => ⟨h.running, Option.some.inj h.1⟩
  · rintro ⟨hrun, rfl⟩
    refine ⟨rfl, fun m hm u hu => ?_⟩
    cases Nat.le_zero.1 hm
    cases hu
    exact hrun

theorem State.goesOnTo_succ_iff {s t : State} {n : Nat} :
    s.GoesOnTo (n + 1) t ↔ s.runState = .running ∧ ∃ u, step s = .next u ∧ u.GoesOnTo n t := by
  constructor
  · intro h
    obtain ⟨u, hu, hut⟩ := State.after_succ_cases h.1
    exact ⟨h.running, u, hu, hut, fun m hm v hv =>
      h.2 (m + 1) (Nat.succ_le_succ hm) v ((State.after_succ hu m).trans hv)⟩
  · rintro ⟨hrun, u, hu, hafter, hall⟩
    refine ⟨(State.after_succ hu n).trans hafter, fun m hm v hv => ?_⟩
    cases m with
    | zero => cases hv; exact hrun
    | succ m => exact hall m (Nat.le_of_succ_le_succ hm) v ((State.after_succ hu m).symm.trans hv)

theorem State.runFuel_eq_outOfFuel_iff_of_terminal {s t : State} {fuel : Nat} (hs : s.terminal = true) :
    s.runFuel fuel = .outOfFuel t ↔ s.GoesOnTo fuel t := by
  rw [State.runFuel_terminal hs]
  exact ⟨nofun, fun h => absurd h.running ((State.terminal_iff s).1 hs)⟩

/-- R90, no end yet: the same induction. -/
theorem State.runFuel_eq_outOfFuel_iff {s t : State} {fuel : Nat} :
    s.runFuel fuel = .outOfFuel t ↔ s.GoesOnTo fuel t := by
  induction fuel generalizing s with
  | zero =>
    cases hs : s.terminal with
    | true => exact State.runFuel_eq_outOfFuel_iff_of_terminal hs
    | false =>
      rw [State.runFuel_zero_of_not_terminal hs, State.goesOnTo_zero_iff, RunResult.outOfFuel.injEq]
      exact (and_iff_right ((State.terminal_eq_false_iff s).1 hs)).symm
  | succ fuel ih =>
    cases hs : s.terminal with
    | true => exact State.runFuel_eq_outOfFuel_iff_of_terminal hs
    | false =>
      rw [State.runFuel_succ_eq_outOfFuel_iff hs, State.goesOnTo_succ_iff]
      simp only [ih]
      exact (and_iff_right ((State.terminal_eq_false_iff s).1 hs)).symm

/-- Settles O42: both answers of the executor are read off the run's definition. -/
theorem fuelledRunEndsAtTheFirstTerminalState : Obligations.FuelledRunEndsAtTheFirstTerminalState :=
  fun _ _ _ _ => ⟨State.runFuel_eq_ended_iff, State.runFuel_eq_outOfFuel_iff⟩

/-! ### Runs from a state of the invariant -/

/-- The two ends the invariant allows. -/
theorem State.Inv.terminal_cases {s : State} (h : s.Inv) (hs : s.terminal = true) :
    s.runState = .haltedNormal ∨ s.runState = .haltedAddress := by
  obtain ⟨-, hpc⟩ := h
  rw [State.terminal_iff] at hs
  cases hrun : s.runState with
  | running => exact absurd hrun hs
  | haltedNormal => exact .inl rfl
  | haltedIllegal => simp [State.pcLegal, hrun] at hpc
  | haltedAddress => exact .inr rfl

/-- Settles O43, by induction on the fuel: a `RUNNING` state of the invariant steps to a state of the invariant. -/
theorem runsEndInATerminalStateOrGoOn : Obligations.RunsEndInATerminalStateOrGoOn := by
  intro s fuel hinv
  induction fuel generalizing s with
  | zero =>
    cases hs : s.terminal with
    | true => exact .inl ⟨0, s, State.runFuel_terminal hs 0, hinv, hinv.terminal_cases hs⟩
    | false =>
      exact .inr ⟨s, State.runFuel_zero_of_not_terminal hs, hinv, (State.terminal_eq_false_iff s).1 hs⟩
  | succ fuel ih =>
    cases hs : s.terminal with
    | true => exact .inl ⟨0, s, State.runFuel_terminal hs _, hinv, hinv.terminal_cases hs⟩
    | false =>
      obtain ⟨u, hu⟩ := runningStatesAlwaysStep s hinv ((State.terminal_eq_false_iff s).1 hs)
      rw [State.runFuel_step hs hu]
      obtain ⟨n, t, ht, hend⟩ | ⟨t, ht, hgoing⟩ := ih u (stepKeepsTheInvariant s u hinv hu)
      · exact .inl ⟨n + 1, t, congrArg RunResult.addStep ht, hend⟩
      · exact .inr ⟨t, congrArg RunResult.addStep ht, hgoing⟩

/-! ### A branch to itself -/

/-- A retirement at the pc itself changes nothing. -/
theorem State.retire_self {s : State} (h : inRange s.pc = true) : s.retire s.pc = s := if_pos h

/-- A state that steps to itself runs out of every fuel. -/
theorem State.runFuel_of_step_self {s : State} (hrun : s.runState = .running) (h : step s = .next s) (fuel : Nat) :
    s.runFuel fuel = .outOfFuel s := by
  have hs := (State.terminal_eq_false_iff s).2 hrun
  induction fuel with
  | zero => exact State.runFuel_zero_of_not_terminal hs
  | succ fuel ih => exact (State.runFuel_step hs h fuel).trans (congrArg RunResult.addStep ih)

/-- Settles O44: the displacement -1 takes the target back to the pc. -/
theorem branchToItselfNeverEnds : Obligations.BranchToItselfNeverEnds := by
  refine ⟨fun s a b hrun hmem hi hab => ?_, by decide⟩
  have hpc : inRange s.pc = true := (inRange_iff s.pc).2 hmem
  have htarget : target s (.beq a b 0xFFFF) = s.pc := by
    rw [target_beq_of_read_eq hab, BitVec.add_assoc]
    exact BitVec.add_zero s.pc
  have hself : step s = .next s := by
    rw [step_eq_exec hrun hpc hi, execBeq_eq_retire_target, htarget, State.retire_self hpc]
  exact ⟨hself, State.runFuel_of_step_self hrun hself⟩

end Sys2Proof.Machine
end
